-- ==== Sys2Proof/Word.lean ====
section
/-! DEFINITION. The bit patterns of BEIC: bytes, 32-bit words and 64-bit results (`spec/00_scope.md` rules R7 to R9). -/

namespace Sys2Proof

/-- A byte of BUF, or a command word OP (R9, R100). -/
abbrev Byte := BitVec 8

/-- A 32-bit pattern: ARG, POS, LENGTH, a key word, a cipher word (R7, `POS_W`, `ARG_W`). -/
abbrev Word := BitVec 32

/-- A 64-bit pattern: RESULT (R7, `RESULT_W`). -/
abbrev DWord := BitVec 64

end Sys2Proof
end

