-- ==== Sys2Proof/Syntax.lean ====
section
/-! DEFINITION. The commands of BEIC-CMD-1 (one constructor per row of `spec/opcode_table.json`), the command pair that
carries one on the command port, and the lines of a command script (`spec/30_encoding.md` rules R100, R107, R111, R112). -/

namespace Sys2Proof

/-- A legal command with its operands (R106, R107). Operand widths are the encoding's: ARG is 32 bits, KI is 2 bits.
A command without an operand holds no ARG, because ARG "has no effect on any state or response" there (R106). -/
inductive Instr where
  | rd1u | rd1s | rd2u | rd2s | rd3u | rd4u | rd4s | rd8u | rdbool
  | smartu | smarts | smart4m | smart4u
  | wr4 (w : Word)
  | decrypt
  | setpos (p : Word)
  | setlen (n : Word)
  | clrkey
  | setkey (ki : BitVec 2) (w : Word)
deriving DecidableEq, Repr

/-- What the host presents on the command port: the pair (OP, ARG) of R100. -/
structure Command where
  op : Byte
  arg : Word
deriving DecidableEq, Repr

/-- One line of a command script as its author writes it (R111), the four pseudo-instructions of R112 among them.
Numbers are as written, so a WR4 or SETKEY operand may be negative. -/
inductive ScriptLine where
  /-- A command that takes no operand, such as `RD1U`. -/
  | plain (i : Instr)
  | wr4 (value : Int)
  | setpos (value : Int)
  | setlen (value : Int)
  | setkey (index : Nat) (value : Int)
  /-- `HBW address, byte`. -/
  | hbw (address byte : Nat)
  /-- `HBR address`. -/
  | hbr (address : Nat)
  | rewind
  | key (k0 k1 k2 k3 : Int)
  | load (bytes : List Nat)
  /-- `SKIP n`, with the POS the author knows at that point, or none (R112). -/
  | skip (n : Nat) (knownPos : Option Nat)
deriving DecidableEq, Repr

end Sys2Proof
end

