-- ==== Sys2Proof/WellFormed.lean ====
section
/-! DEFINITION. What a well-formed command pair and a well-formed script line are. A command pair is checked format by
format from the fields of `spec/30_encoding.md` rules R102 to R105 and R108, independently of the opcode map that
`Decode.lean` follows. An `Instr` needs no check of its own: its operands' types are the encoding's fields. -/

namespace Sys2Proof

/-- Format R (R102, R108): bit 3 is 0; a boolean read has S = 0 and W = 0; otherwise an unsigned read has width 1, 2, 3, 4
or 8 and a signed read width 1, 2 or 4 (W is the width less one). -/
def formatRLegal (op : Byte) : Bool :=
  let s := op.getLsbD 5
  let b := op.getLsbD 4
  let w := (op.extractLsb' 0 3).toNat
  !op.getLsbD 3 &&
    if b then !s && w == 0
    else if s then w == 0 || w == 1 || w == 3
    else w == 0 || w == 1 || w == 2 || w == 3 || w == 7

/-- Format V (R103, R108): bits 5:2 are 0; L and X are free. -/
def formatVLegal (op : Byte) : Bool := op.extractLsb' 2 4 == 0

/-- Format M (R104, R108): bits 5:1 are 0; F is free. -/
def formatMLegal (op : Byte) : Bool := op.extractLsb' 1 5 == 0

/-- Format C (R105, R108): bits 5:3 are 0; with K = 0 the value N = 3 is reserved, with K = 1 every key index is legal. -/
def formatCLegal (op : Byte) : Bool :=
  op.extractLsb' 3 3 == 0 && (op.getLsbD 2 || !(op.extractLsb' 0 2 == 3))

/-- A command word is well-formed when the format its group `OP[7:6]` names (R101) allows its fields. -/
def Command.wellFormed (c : Command) : Bool :=
  match (c.op.extractLsb' 6 2).toNat with
  | 0 => formatRLegal c.op
  | 1 => formatVLegal c.op
  | 2 => formatMLegal c.op
  | _ => formatCLegal c.op

/-- The command takes no operand (R111: "the other commands take no operand"). -/
def Instr.takesNoOperand : Instr → Bool
  | .wr4 _ | .setpos _ | .setlen _ | .setkey _ _ => false
  | .rd1u | .rd1s | .rd2u | .rd2s | .rd3u | .rd4u | .rd4s | .rd8u | .rdbool
  | .smartu | .smarts | .smart4m | .smart4u | .decrypt | .clrkey => true

/-- An operand that may not be written negative: an unsigned 32-bit number (R111). -/
def unsignedOperand (v : Int) : Bool := decide (0 ≤ v ∧ v < 2 ^ 32)

/-- A well-formed script line (R111, R112): a plain line's command takes no operand; SETPOS, SETLEN, HBW and HBR operands
are unsigned 32-bit numbers; a key index is 0..3; a written byte is 0..255; SKIP needs a known POS. -/
def ScriptLine.wellFormed : ScriptLine → Bool
  | .plain i => i.takesNoOperand
  | .wr4 _ => true
  | .setpos v => unsignedOperand v
  | .setlen v => unsignedOperand v
  | .setkey k _ => decide (k < 4)
  | .hbw a b => unsignedOperand a && decide (b < 256)
  | .hbr a => unsignedOperand a
  | .rewind => true
  | .key _ _ _ _ => true
  | .load bs => unsignedOperand bs.length && bs.all (fun b => decide (b < 256))
  | .skip _ none => false
  | .skip n (some p) => unsignedOperand (p + n)

end Sys2Proof
end

