-- ==== Sys2Proof/Decode.lean ====
section
/-! DEFINITION. The decode function of `spec/30_encoding.md` rule R109, total on all 256 command words, written from the
opcode map of rule R107; after it the encoder, written from the same map; and the reading of a table word. -/

namespace Sys2Proof

/-- What a command pair decodes to (R109): a command, or `ILLEGAL` with the reserved word. -/
inductive Decoded where
  | legal (i : Instr)
  | illegal (op : Byte)
deriving DecidableEq, Repr

/-- `decode(OP)` of R109, with the operands of R106 taken from ARG and `KI = OP[1:0]`. Only the operands depend on ARG. -/
def decode (c : Command) : Decoded :=
  match c.op.toNat with
  | 0x00 => .legal .rd1u
  | 0x20 => .legal .rd1s
  | 0x01 => .legal .rd2u
  | 0x21 => .legal .rd2s
  | 0x02 => .legal .rd3u
  | 0x03 => .legal .rd4u
  | 0x23 => .legal .rd4s
  | 0x07 => .legal .rd8u
  | 0x10 => .legal .rdbool
  | 0x80 => .legal (.wr4 c.arg)
  | 0x40 => .legal .smartu
  | 0x41 => .legal .smarts
  | 0x42 => .legal .smart4m
  | 0x43 => .legal .smart4u
  | 0x81 => .legal .decrypt
  | 0xC0 => .legal (.setpos c.arg)
  | 0xC1 => .legal (.setlen c.arg)
  | 0xC2 => .legal .clrkey
  | 0xC4 | 0xC5 | 0xC6 | 0xC7 => .legal (.setkey (c.op.extractLsb' 0 2) c.arg)
  | _ => .illegal c.op

/-- The command word of a command (R107; SETKEY is 0xC4 + KI, R212). -/
def encodeOp : Instr → Byte
  | .rd1u => 0x00
  | .rd1s => 0x20
  | .rd2u => 0x01
  | .rd2s => 0x21
  | .rd3u => 0x02
  | .rd4u => 0x03
  | .rd4s => 0x23
  | .rd8u => 0x07
  | .rdbool => 0x10
  | .wr4 _ => 0x80
  | .smartu => 0x40
  | .smarts => 0x41
  | .smart4m => 0x42
  | .smart4u => 0x43
  | .decrypt => 0x81
  | .setpos _ => 0xC0
  | .setlen _ => 0xC1
  | .clrkey => 0xC2
  | .setkey ki _ => 0b110001#6 ++ ki

/-- The argument of a command; "a command with no operand is encoded with ARG = 0x00000000" (R111). -/
def encodeArg : Instr → Word
  | .wr4 w => w
  | .setpos p => p
  | .setlen n => n
  | .setkey _ w => w
  | .rd1u | .rd1s | .rd2u | .rd2s | .rd3u | .rd4u | .rd4s | .rd8u | .rdbool
  | .smartu | .smarts | .smart4m | .smart4u | .decrypt | .clrkey => 0

/-- The command pair of a command. -/
def encode (i : Instr) : Command := { op := encodeOp i, arg := encodeArg i }

/-- The 40 bits of a command as one number, read back as the pair. DESIGN CHOICE (safe, assumption 3): R100 gives a command
40 bits and no order of its two parts; OP is bits 7:0, as the opcode table numbers it, and ARG is bits 39:8. Bits at and
above `nbits` are 0. -/
def commandOfTableWord (nbits w : Nat) : Command :=
  let v := w % 2 ^ nbits
  { op := BitVec.ofNat 8 v, arg := BitVec.ofNat 32 (v / 256) }

/-- The command the decoder reads from a word numbered as `spec/opcode_table.json` numbers it. -/
def decodeTableWord (nbits w : Nat) : Option Instr :=
  match decode (commandOfTableWord nbits w) with
  | .legal i => some i
  | .illegal _ => none

end Sys2Proof
end

