-- ==== Sys2Proof/Config.lean ====
section
/-! DEFINITION. The `OPEN` parameters of BEIC-1 (`spec/00_scope.md` rule R7) and the model's free values
(`spec/93_implementation_defined.md` I3, I4, I12). A free value is an opaque constant: nothing in Lean can evaluate it. -/

namespace Sys2Proof

/-- The two `OPEN` parameters of R7. Every machine state carries them (the model takes them as an argument), no step
changes them, and a claim about every state quantifies over them. -/
structure Config where
  /-- `BUF_CAP`, the capacity of BUF in bytes (R7, D2). -/
  bufCap : Nat
  /-- `BOOL_OTHER`, RDBOOL's result for a byte outside 0 and 1: `false` is 0, `true` is 1 (R7, D9). -/
  boolOther : Bool
deriving DecidableEq, Repr

/-- R7: "any integer with 1 ≤ BUF_CAP ≤ 2^32 − 1". `BOOL_OTHER` is 0 or 1 by its type. -/
abbrev Config.wf (c : Config) : Prop := 1 ≤ c.bufCap ∧ c.bufCap ≤ 2 ^ 32 - 1

/-- The parameters that `State.reset` carries. DESIGN CHOICE (unsafe, assumption 2): R7 leaves `BUF_CAP` open; 64 is the
default of the reference script of `spec/95_test_vectors.md` §5 and the capacity of R211's example. `BOOL_OTHER` is R7's default 0. -/
def Config.reference : Config := { bufCap := 64, boolOther := false }

/-- The byte that draw number `n` gives the host when it reads a BUF byte with no value (R222, D17, I3). -/
opaque Config.freeHostByte : Nat → Byte

/-- What `hb_rdata` shows in model cycle `n` when no read access precedes it (R47, I12). -/
opaque Config.freeIdleRdata : Nat → Byte

/-- What `rsp_result` shows in model cycle `n` while RESULT holds no value (R44, I4). -/
opaque Config.freeResult : Nat → DWord

end Sys2Proof
end

