-- ==== Sys2Proof/Machine/State.lean ====
section
/-! DEFINITION. The state of BEIC as plain data (`spec/10_state.md` rules R30 to R47), the host's side of the ports, the
sticky log of R243, and the reasons a step can stop. -/

namespace Sys2Proof.Machine

/-- BUF as the bytes that hold a value, in rising order of address (R31). An unlisted address holds no value. -/
abbrev Memory := List Host.Cell

/-- `KEY[0..3]`, four 32-bit words (R35). -/
structure Key where
  k0 : Word
  k1 : Word
  k2 : Word
  k3 : Word
deriving DecidableEq, Repr

/-- PHASE (R41). -/
inductive Phase where
  | idle | busy
deriving DecidableEq, Repr

/-- The names of the STATUS.CODE values BEIC-1 uses (R40). -/
inductive StatusCode where
  | ok | eBounds | eIllegal | eArg | none
deriving DecidableEq, Repr

/-- One sample of the input signals of R44 (`clk` apart: one sample stands for one model cycle). -/
structure Inputs where
  rst : Bool
  cmdValid : Bool
  cmdOp : Byte
  cmdArg : Word
  hbEn : Bool
  hbWe : Bool
  hbAddr : Word
  hbWdata : Byte
deriving DecidableEq, Repr

/-- The output signals of R44. -/
structure Outputs where
  cmdReady : Bool
  rspValid : Bool
  rspStatus : BitVec 4
  rspResult : DWord
  posO : Word
  lenO : Word
  hbRdata : Byte
deriving DecidableEq, Repr

/-- One entry of the sticky log that R243 keeps beside the state: an error response or an UNINIT fault. -/
inductive LogEntry where
  /-- A legal command answered E_BOUNDS or E_ARG. -/
  | errorResponse (i : Instr) (code : StatusCode)
  /-- A reserved command word answered E_ILLEGAL. -/
  | illegalWord (op : Byte)
  /-- A command reached address `a`, whose byte holds no value (R236). -/
  | uninit (i : Instr) (a : Nat)
deriving DecidableEq, Repr

/-- The machine. `cfg` to `phase` are the block's (R7, R30); `rspValid`, `hbRdata` and `hbRdataValid` are its output
registers (R44, R47); `inputs`, `log`, `draws` and `resultValid` are the model's own. -/
structure State where
  /-- The `OPEN` parameters of R7; no step changes them. -/
  cfg : Config
  /-- BUF (R31). -/
  buf : Memory
  /-- LENGTH (R32). -/
  length : Word
  /-- POS (R33). -/
  pos : Word
  /-- KEY[0..3] (R35). -/
  key : Key
  /-- RESULT (R37). -/
  result : DWord
  /-- Whether RESULT holds a value: some read command has completed with OK since reset (R37). -/
  resultValid : Bool
  /-- STATUS, with CODE in bits 3:0 (R39). -/
  status : BitVec 8
  /-- PHASE (R41). -/
  phase : Phase
  /-- `rsp_valid`: the last model cycle completed a command (R44). -/
  rspValid : Bool
  /-- The byte of the last host read (R222). -/
  hbRdata : Byte
  /-- The last model cycle was a host read, so `hb_rdata` shows `hbRdata` (R44). -/
  hbRdataValid : Bool
  /-- What the host will drive, one sample a model cycle, the next one first. Empty: the host drives nothing. -/
  inputs : List Inputs
  /-- The sticky log of error responses and UNINIT faults, newest first (R243). Not hardware state. -/
  log : List LogEntry
  /-- The number of model cycles so far; it numbers the draws of the free values. Not hardware state. -/
  draws : Nat
deriving DecidableEq, Repr

/-- Why the machine stops without an outcome. -/
inductive Fault where
  /-- UNINIT (R236): the `MemRead` of command `i` reached address `a`, which holds no value. Raised by the read, smart and
  DECRYPT commands. `log` is the sticky log with its entry (R243). Safe: the chip would go on with whatever the byte holds. -/
  | uninit (i : Instr) (a : Nat) (log : List LogEntry)
deriving DecidableEq, Repr

/-- Why the model has no move. -/
inductive Refusal where
  /-- An instruction without a meaning yet. No arm of `exec` answers it. Safe. -/
  | notModelled (mnemonic : String)
  /-- The host used the host buffer port while BUSY: a breach of duty that "BEIC-1 gives no meaning" (R220, I9).
  Raised by the host port. Safe: the run ends. -/
  | hostPortWhileBusy
  /-- The host used the host buffer port in the cycle in which a command is accepted (R220, I9). Raised by the host
  port. Safe: the run ends. -/
  | hostPortInAcceptingCycle
  /-- The host named a buffer address at or above BUF_CAP (R220, I9). Raised by the host port. Safe: the run ends. -/
  | hostPortAddress (a : Nat)
deriving DecidableEq, Repr

/-- The state after reset for given parameters (R47). RESULT and `hb_rdata` hold no value there: their bits are 0 by
DESIGN CHOICE (assumption 1) and no port shows them, since `resultValid` and `hbRdataValid` are false. -/
def State.resetWith (c : Config) : State where
  cfg := c
  buf := []
  length := 0
  pos := 0
  key := { k0 := 0, k1 := 0, k2 := 0, k3 := 0 }
  result := 0
  resultValid := false
  status := 0x0F
  phase := .idle
  rspValid := false
  hbRdata := 0
  hbRdataValid := false
  inputs := []
  log := []
  draws := 0

/-- The machine right after reset (R47, R260), with the parameters of `Config.reference`. -/
def State.reset : State := State.resetWith Config.reference

end Sys2Proof.Machine
end

