-- ==== Sys2Proof/Machine/Operands.lean ====
section
/-! DEFINITION. The numbers commands compute and the patterns they are held as (`spec/00_scope.md` rules R8, R10, R16), the
bounds predicate of R13, the signedness table of `spec/30_encoding.md` rule R110, and the key selection of R106 and R190. -/

namespace Sys2Proof.Machine

/-- `zext_64(v)` for a number of an unsigned command (R10). -/
def zext64 (v : Nat) : DWord := BitVec.ofNat 64 v

/-- `sext_64(v)`, that is `v mod 2^64` (R10). -/
def sext64 (v : Int) : DWord := BitVec.ofInt 64 v

/-- How a command's number is held in RESULT (R110). -/
inductive Signedness where
  | unsigned | signed
deriving DecidableEq, Repr

/-- R110. `none`: the command returns no number and leaves RESULT unchanged. -/
def signednessOf : Instr → Option Signedness
  | .rd1s | .rd2s | .rd4s | .smarts | .smart4u => some .signed
  | .rd1u | .rd2u | .rd3u | .rd4u | .rd8u | .rdbool | .smartu | .smart4m => some .unsigned
  | .wr4 _ | .decrypt | .setpos _ | .setlen _ | .setkey _ _ | .clrkey => none

/-- The number a host reads from a RESULT pattern under a command's signedness (R16). -/
def hostNumber : Signedness → DWord → Int
  | .unsigned, r => r.toNat
  | .signed, r => r.toInt

/-- The sign conversion of R131, R133 and R136 in the source's words: "value −= 2^bits if > 2^(bits−1) − 1". -/
def signConvert (bits v : Nat) : Int := if v > 2 ^ (bits - 1) - 1 then (v : Int) - 2 ^ bits else v

/-- The number of RDBOOL (R138): bytes 0 and 1 are fixed, every other byte gives `BOOL_OTHER`. -/
def boolNumber (c : Config) (b : Nat) : Nat :=
  if b = 1 then 1 else if b = 0 then 0 else c.boolOther.toNat

/-- The top bit of a byte that was read (R9: bit 7, mask 0x80). -/
def topBit (b : Nat) : Bool := b.testBit 7

/-- `InBounds(a, n)` (R13), on unbounded integers. -/
abbrev inBounds (s : State) (a n : Nat) : Prop := a + n ≤ s.length.toNat

/-- `available = LENGTH − POS` (R34). -/
def available (s : State) : Nat := s.length.toNat - s.pos.toNat

/-- `KEY[i]` for a 2-bit index. -/
def Key.get (k : Key) (i : BitVec 2) : Word :=
  match i.toNat with
  | 0 => k.k0
  | 1 => k.k1
  | 2 => k.k2
  | _ => k.k3

/-- `KEY[i] <- w` for a 2-bit index (R212). -/
def Key.set (k : Key) (i : BitVec 2) (w : Word) : Key :=
  match i.toNat with
  | 0 => { k with k0 := w }
  | 1 => { k with k1 := w }
  | 2 => { k with k2 := w }
  | _ => { k with k3 := w }

/-- All four words zero: "absent a key, all four words are treated as zero" (R36). -/
def Key.zero : Key := { k0 := 0, k1 := 0, k2 := 0, k3 := 0 }

end Sys2Proof.Machine
end

