-- ==== Sys2Proof/Machine/Flags.lean ====
section
/-! DEFINITION. STATUS, BEIC's only flags (`spec/10_state.md` rules R39, R40, R43). -/

namespace Sys2Proof.Machine

/-- The 4-bit value of a code (R40). -/
def StatusCode.bits : StatusCode → BitVec 4
  | .ok => 0x0
  | .eBounds => 0x1
  | .eIllegal => 0x2
  | .eArg => 0x3
  | .none => 0xF

/-- `STATUS.CODE <- c`. Bits 7:4 are hardwired 0 (R39). -/
def statusOf (c : StatusCode) : BitVec 8 := 0#4 ++ c.bits

/-- The CODE field, bits 3:0 of STATUS (R39). -/
def codeField (st : BitVec 8) : BitVec 4 := st.extractLsb' 0 4

/-- The reserved field, bits 7:4 of STATUS (R39). -/
def reservedField (st : BitVec 8) : BitVec 4 := st.extractLsb' 4 4

/-- The CODE values BEIC-1 produces (R40): 0x4 to 0xE are "never produced by BEIC-1". -/
abbrev legalCode (code : BitVec 4) : Prop :=
  code = 0x0 ∨ code = 0x1 ∨ code = 0x2 ∨ code = 0x3 ∨ code = 0xF

end Sys2Proof.Machine
end

