-- ==== Sys2Proof/Machine/Ops.lean ====
section
/-! DEFINITION. The named operations over BUF and the registers: one byte of BUF, `MemRead` and `MemWrite`
(`spec/00_scope.md` rule R14), the response of a command, raising an error (`spec/60_exceptions.md` rule R233), and the
read of n bytes at the cursor that the read and smart commands share (`spec/40_integer_codec.md` rule R140). -/

namespace Sys2Proof.Machine

/-- What one command answers. -/
abbrev Result := Host.Outcome State Fault Refusal

/-- `BUF[a]`, or `none` where the byte holds no value (R31). -/
def Memory.read : Memory → Nat → Option Byte
  | [], _ => none
  | (k, b) :: rest, a => if k = a then some b else Memory.read rest a

/-- `BUF[a] <- b`, in the canonical form. -/
def Memory.write : Memory → Nat → Byte → Memory
  | [], a, b => [(a, b)]
  | (k, c) :: rest, a, b =>
    if a < k then (a, b) :: (k, c) :: rest
    else if a = k then (a, b) :: rest
    else (k, c) :: Memory.write rest a b

/-- The canonical form: addresses strictly rising. (An unlisted byte holds no value, so no entry can equal it.) -/
abbrev Memory.wf (m : Memory) : Prop := m.Pairwise (fun x y => x.1 < y.1)

/-- `MemRead(a, n)` (R14): the bytes at a .. a+n−1, the byte at the lowest address most significant. `.error x`: the byte
at `x` holds no value. DESIGN CHOICE (unsafe for which address UNINIT names, assumption 16): R14 states no order in which the
bytes are reached; where several hold no value, `x` is the lowest. -/
def memRead (m : Memory) (a : Nat) : Nat → Except Nat Nat
  | 0 => .ok 0
  | n + 1 =>
    match memRead m a n with
    | .error x => .error x
    | .ok hi =>
      match m.read (a + n) with
      | none => .error (a + n)
      | some b => .ok (hi * 256 + b.toNat)

/-- `MemWrite(a, n, v)` (R14): the low byte of `v` at a+n−1, the bytes above it at a .. a+n−2. -/
def memWrite (m : Memory) (a : Nat) : Nat → Nat → Memory
  | 0, _ => m
  | n + 1, v => Memory.write (memWrite m a n (v / 256)) (a + n) (BitVec.ofNat 8 v)

/-- Advance POS by `n` bytes (R33). -/
def advancePos (s : State) (n : Nat) : State := { s with pos := BitVec.ofNat 32 (s.pos.toNat + n) }

/-- `RESULT <- r` (R38); from now on RESULT holds a value (R37). -/
def writeResult (s : State) (r : DWord) : State := { s with result := r, resultValid := true }

/-- The response of a command (R41, R44): STATUS.CODE takes `c`, PHASE returns to IDLE, `rsp_valid` is high. -/
def respond (c : StatusCode) (s : State) : State :=
  { s with status := statusOf c, phase := .idle, rspValid := true }

/-- Completion without an error: `STATUS.CODE <- OK` (R235). -/
def complete (s : State) : State := respond .ok s

/-- Raising an error, the one exception of BEIC (R230, R233): the response carries the code, the sticky log of R243 takes
an entry, and nothing else changes. There is no trap entry and no return from one (R241, R242). -/
def raise (c : StatusCode) (e : LogEntry) (s : State) : Result :=
  .next { respond c s with log := e :: s.log }

/-- `raise E_BOUNDS` in command `i` (R231). -/
def raiseBounds (i : Instr) (s : State) : Result := raise .eBounds (.errorResponse i .eBounds) s

/-- `raise E_ARG` in command `i` (R234). -/
def raiseArg (i : Instr) (s : State) : Result := raise .eArg (.errorResponse i .eArg) s

/-- A reserved command word (R232). -/
def raiseIllegal (op : Byte) (s : State) : Result := raise .eIllegal (.illegalWord op) s

/-- UNINIT (R236): command `i` reached address `a`, whose byte holds no value. The sticky log takes an entry (R243), and the
run ends with that log, because "the command has no defined outcome". -/
def stopUninit (i : Instr) (a : Nat) (s : State) : Result := .fault (.uninit i a (.uninit i a :: s.log))

/-- The common shape of R140: test the bounds of `n` bytes at POS, read them big-endian, write RESULT with the pattern of
their number, advance POS by `n`, answer OK. -/
def readAtPos (i : Instr) (n : Nat) (pattern : Nat → DWord) (s : State) : Result :=
  if inBounds s s.pos.toNat n then
    match memRead s.buf s.pos.toNat n with
    | .error a => stopUninit i a s
    | .ok v => .next (complete (advancePos (writeResult s (pattern v)) n))
  else raiseBounds i s

/-- The common shape of the smart commands (R171): peek the byte at POS without moving POS, then consume the short form
(top bit clear) or the long form (top bit set), each `(bytes, pattern of the raw value)` from POS. -/
def readSmart (i : Instr) (short long : Nat × (Nat → DWord)) (s : State) : Result :=
  if inBounds s s.pos.toNat 1 then
    match memRead s.buf s.pos.toNat 1 with
    | .error a => stopUninit i a s
    | .ok b0 => if topBit b0 then readAtPos i long.1 long.2 s else readAtPos i short.1 short.2 s
  else raiseBounds i s

end Sys2Proof.Machine
end

