-- ==== Sys2Proof/Machine/Cipher.lean ====
section
/-! DEFINITION. The XTEA block decryptor (`spec/42_xtea_decryptor.md` rules R190 to R193), in the 32-bit arithmetic of
`spec/00_scope.md` rule R11, which is that of `Word`. -/

namespace Sys2Proof.Machine

/-- `DELTA` (R7, R190). -/
def delta : Word := 0x9E3779B9

/-- What a half-round subtracts: `(((v <<32 4) xor (v >>u 5)) +32 v) xor (sum +32 k)` (R190). -/
def halfRound (v sum k : Word) : Word := (((v <<< 4) ^^^ (v >>> 5)) + v) ^^^ (sum + k)

/-- The key word of the z half-round, `K[(sum >>u 11) and 3]` (R190). -/
def keyZ (K : Key) (sum : Word) : Word := K.get ((sum >>> 11).extractLsb' 0 2)

/-- The key word of the y half-round, `K[sum and 3]` (R190). -/
def keyY (K : Key) (sum : Word) : Word := K.get (sum.extractLsb' 0 2)

/-- `n` rounds of R190 from `(y, z)` and `sum`: z first, then one decrement of `sum`, then y (C6). -/
def xteaRounds (K : Key) : Nat → Word → Word → Word → Word × Word
  | 0, y, z, _ => (y, z)
  | n + 1, y, z, sum =>
    let z' := z - halfRound y sum (keyZ K sum)
    let sum' := sum - delta
    let y' := y - halfRound z' sum' (keyY K sum')
    xteaRounds K n y' z' sum'

/-- `XTEA_DEC(y, z, K)` (R190): 32 rounds from `sum = trunc_32(DELTA · 32)`. -/
def xteaDec (y z : Word) (K : Key) : Word × Word := xteaRounds K 32 y z (delta * 32)

/-- `nblocks` for a buffer of `len` bytes (R192, `HDR` = 5, `BLK` = 8). -/
def nblocks (len : Nat) : Nat := if 5 ≤ len then (len - 5) / 8 else 0

/-- The block loop of R193: `n` blocks from address `a` on, in rising order. -/
def decryptBlocks (K : Key) : Nat → Nat → Memory → Except Nat Memory
  | 0, _, m => .ok m
  | n + 1, a, m =>
    match memRead m a 4 with
    | .error x => .error x
    | .ok y =>
      match memRead m (a + 4) 4 with
      | .error x => .error x
      | .ok z =>
        let r := xteaDec (BitVec.ofNat 32 y) (BitVec.ofNat 32 z) K
        decryptBlocks K n (a + 8) (memWrite (memWrite m a 4 r.1.toNat) (a + 4) 4 r.2.toNat)

/-- DECRYPT (R193). POS and RESULT are unchanged. -/
def execDecrypt (s : State) : Result :=
  match decryptBlocks s.key (nblocks s.length.toNat) 5 s.buf with
  | .error a => stopUninit .decrypt a s
  | .ok m => .next (complete { s with buf := m })

end Sys2Proof.Machine
end

