-- ==== Sys2Proof/Machine/Control.lean ====
section
/-! DEFINITION. The control commands (`spec/43_control.md` rules R210 to R213). -/

namespace Sys2Proof.Machine

/-- SETPOS (R210). -/
def execSetpos (p : Word) (s : State) : Result :=
  if p.toNat > s.length.toNat then raiseArg (.setpos p) s else .next (complete { s with pos := p })

/-- SETLEN (R211): set LENGTH and rewind. -/
def execSetlen (n : Word) (s : State) : Result :=
  if n.toNat > s.cfg.bufCap then raiseArg (.setlen n) s else .next (complete { s with length := n, pos := 0 })

/-- SETKEY (R212). -/
def execSetkey (ki : BitVec 2) (w : Word) (s : State) : Result :=
  .next (complete { s with key := s.key.set ki w })

/-- CLRKEY (R213). -/
def execClrkey (s : State) : Result := .next (complete { s with key := Key.zero })

end Sys2Proof.Machine
end

