-- ==== Sys2Proof/Machine/Integer.lean ====
section
/-! DEFINITION. The big-endian integer codec (`spec/40_integer_codec.md` rules R130 to R139). -/

namespace Sys2Proof.Machine

/-- RD1U (R130). -/
def execRd1u (s : State) : Result := readAtPos .rd1u 1 zext64 s

/-- RD1S (R131). -/
def execRd1s (s : State) : Result := readAtPos .rd1s 1 (fun v => sext64 (signConvert 8 v)) s

/-- RD2U (R132). -/
def execRd2u (s : State) : Result := readAtPos .rd2u 2 zext64 s

/-- RD2S (R133). -/
def execRd2s (s : State) : Result := readAtPos .rd2s 2 (fun v => sext64 (signConvert 16 v)) s

/-- RD3U (R134). -/
def execRd3u (s : State) : Result := readAtPos .rd3u 3 zext64 s

/-- RD4U (R135). -/
def execRd4u (s : State) : Result := readAtPos .rd4u 4 zext64 s

/-- RD4S (R136). -/
def execRd4s (s : State) : Result := readAtPos .rd4s 4 (fun v => sext64 (signConvert 32 v)) s

/-- RD8U (R137): one bounds test for all 8 bytes, then two 4-byte reads, high then low. -/
def execRd8u (s : State) : Result :=
  if inBounds s s.pos.toNat 8 then
    match memRead s.buf s.pos.toNat 4 with
    | .error a => stopUninit .rd8u a s
    | .ok hi =>
      match memRead s.buf (s.pos.toNat + 4) 4 with
      | .error a => stopUninit .rd8u a s
      | .ok lo => .next (complete (advancePos (writeResult s (zext64 (hi * 2 ^ 32 + lo))) 8))
  else raiseBounds .rd8u s

/-- RDBOOL (R138). -/
def execRdbool (s : State) : Result := readAtPos .rdbool 1 (fun b => zext64 (boolNumber s.cfg b)) s

/-- WR4 (R139). RESULT is unchanged. -/
def execWr4 (w : Word) (s : State) : Result :=
  if inBounds s s.pos.toNat 4 then
    .next (complete (advancePos { s with buf := memWrite s.buf s.pos.toNat 4 w.toNat } 4))
  else raiseBounds (.wr4 w) s

end Sys2Proof.Machine
end

