-- ==== Sys2Proof/Machine/Smart.lean ====
section
/-! DEFINITION. The variable-length ("smart") integer decoder (`spec/41_smart_decoder.md` rules R171 to R175). -/

namespace Sys2Proof.Machine

/-- SMARTU (R172): u8, or u16 − 0x8000. -/
def execSmartu (s : State) : Result :=
  readSmart .smartu (1, zext64) (2, fun raw => zext64 (raw - 0x8000)) s

/-- SMARTS (R173): u8 − 0x40, or u16 − 0xC000. -/
def execSmarts (s : State) : Result :=
  readSmart .smarts (1, fun b => sext64 ((b : Int) - 0x40)) (2, fun raw => sext64 ((raw : Int) - 0xC000)) s

/-- SMART4M (R174): u16, or the 4-byte value with bit 31 cleared. -/
def execSmart4m (s : State) : Result :=
  readSmart .smart4m (2, zext64) (4, fun raw => zext64 (raw &&& 0x7FFFFFFF)) s

/-- SMART4U (R175): u16, or the 4-byte value as a signed number. -/
def execSmart4u (s : State) : Result :=
  readSmart .smart4u (2, fun v => sext64 v) (4, fun raw => sext64 ((raw : Int) - 2 ^ 32)) s

end Sys2Proof.Machine
end

