-- ==== Sys2Proof/Machine/Dispatch.lean ====
section
/-! DEFINITION. The meaning of each command, one arm per row of `spec/opcode_table.json`. -/

namespace Sys2Proof.Machine

def exec (i : Instr) (s : State) : Host.Outcome State Fault Refusal :=
  match i with
  | .rd1u => Sys2Proof.Machine.execRd1u s
  | .rd1s => Sys2Proof.Machine.execRd1s s
  | .rd2u => Sys2Proof.Machine.execRd2u s
  | .rd2s => Sys2Proof.Machine.execRd2s s
  | .rd3u => Sys2Proof.Machine.execRd3u s
  | .rd4u => Sys2Proof.Machine.execRd4u s
  | .rd4s => Sys2Proof.Machine.execRd4s s
  | .rd8u => Sys2Proof.Machine.execRd8u s
  | .rdbool => Sys2Proof.Machine.execRdbool s
  | .smartu => Sys2Proof.Machine.execSmartu s
  | .smarts => Sys2Proof.Machine.execSmarts s
  | .smart4m => Sys2Proof.Machine.execSmart4m s
  | .smart4u => Sys2Proof.Machine.execSmart4u s
  | .wr4 w => Sys2Proof.Machine.execWr4 w s
  | .decrypt => Sys2Proof.Machine.execDecrypt s
  | .setpos p => Sys2Proof.Machine.execSetpos p s
  | .setlen n => Sys2Proof.Machine.execSetlen n s
  | .clrkey => Sys2Proof.Machine.execClrkey s
  | .setkey ki w => Sys2Proof.Machine.execSetkey ki w s

end Sys2Proof.Machine
end

