-- ==== Sys2Proof/Machine/HostPort.lean ====
section
/-! DEFINITION. The ports (`spec/10_state.md` rules R44 to R46): what the host drives, what one model cycle does around a
command, the host buffer port (`spec/43_control.md` rules R220 to R222), reset (`spec/70_reset_and_hazards.md` rules R260,
R261), and the output signals. -/

namespace Sys2Proof.Machine

/-- The host drives nothing. -/
def Inputs.quiet : Inputs where
  rst := false
  cmdValid := false
  cmdOp := 0
  cmdArg := 0
  hbEn := false
  hbWe := false
  hbAddr := 0
  hbWdata := 0

/-- The host offers a command (R44, R265). -/
def Inputs.ofCommand (c : Command) : Inputs :=
  { Inputs.quiet with cmdValid := true, cmdOp := c.op, cmdArg := c.arg }

/-- `HBW a, b` (R221). -/
def Inputs.hbw (a : Word) (b : Byte) : Inputs :=
  { Inputs.quiet with hbEn := true, hbWe := true, hbAddr := a, hbWdata := b }

/-- `HBR a` (R222). -/
def Inputs.hbr (a : Word) : Inputs := { Inputs.quiet with hbEn := true, hbAddr := a }

/-- The host asserts `rst` (R260). -/
def Inputs.reset : Inputs := { Inputs.quiet with rst := true }

/-- The command a sample offers: OP and ARG are sampled together (R100). -/
def Inputs.command (x : Inputs) : Command := { op := x.cmdOp, arg := x.cmdArg }

/-- The sample of the next model cycle: the first the host will drive, or nothing. -/
def sample (s : State) : Inputs := s.inputs.headD Inputs.quiet

/-- What passing one model cycle does by itself: the sample is used up, `rsp_valid` and the validity of `hb_rdata` last one
cycle (R44), and the draws move on. -/
def tick (s : State) : State :=
  { s with inputs := s.inputs.tail, rspValid := false, hbRdataValid := false, draws := s.draws + 1 }

/-- A command is accepted: PHASE goes to BUSY (R41). -/
def accept (s : State) : State := { tick s with phase := .busy }

/-- The reset event (R260): all state takes its value of R47. The parameters, what the host drives next, the log (R243:
"never cleared by a later step") and the draws are not hardware state and stay. -/
def applyReset (s : State) : State :=
  { State.resetWith s.cfg with inputs := s.inputs.tail, log := s.log, draws := s.draws + 1 }

/-- A host buffer port access while IDLE (R220 to R222). A read of a byte with no value gives the host a draw. -/
def hostAccess (x : Inputs) (s : State) : Result :=
  if x.hbAddr.toNat < s.cfg.bufCap then
    if x.hbWe then .next { s with buf := s.buf.write x.hbAddr.toNat x.hbWdata }
    else
      .next { s with
        hbRdata := (s.buf.read x.hbAddr.toNat).getD (Config.freeHostByte s.draws)
        hbRdataValid := true }
  else .refused (.hostPortAddress x.hbAddr.toNat)

/-- A model cycle that finds PHASE = BUSY, which no run reaches (R41, assumption 6). A command offered then "is simply held
(no error, no loss)" (R266), so its sample stays; host port use is a breach (R220). -/
def busyCycle (x : Inputs) (s : State) : Result :=
  if x.hbEn then .refused .hostPortWhileBusy
  else if x.cmdValid then .next { tick s with inputs := s.inputs }
  else .next (tick s)

/-- The output signals (R44, R46) in a state, with `rst` as driven (R261: `cmd_ready` and `rsp_valid` are 0 while it is 1).
`rsp_result` without a value and `hb_rdata` between reads are free values (I4, I12). -/
def outputs (rst : Bool) (s : State) : Outputs where
  cmdReady := !rst && s.phase == .idle
  rspValid := !rst && s.rspValid
  rspStatus := codeField s.status
  rspResult := if s.resultValid then s.result else Config.freeResult s.draws
  posO := s.pos
  lenO := s.length
  hbRdata := if s.hbRdataValid then s.hbRdata else Config.freeIdleRdata s.draws

/-- The host will drive `xs` before anything else it had in mind. -/
def State.drive (xs : List Inputs) (s : State) : State := { s with inputs := xs ++ s.inputs }

end Sys2Proof.Machine
end

