-- ==== Sys2Proof/Machine/Cycle.lean ====
section
/-! DEFINITION. One model cycle on one sample of the input signals. -/

namespace Sys2Proof.Machine

/-- An accepted command as one atomic transition (R3, R77): a legal command has its meaning, a reserved word raises
E_ILLEGAL "before anything else is examined" (R232). -/
def runCommand (c : Command) (s : State) : Result :=
  match decode c with
  | .legal i => exec i s
  | .illegal op => raiseIllegal op s

/-- One model cycle: `rst` first, everything else ignored with it (R260, R261); otherwise, while IDLE, an offered command is
accepted and completes (R265), or the host port is used, or nothing happens. -/
def cycle (x : Inputs) (s : State) : Result :=
  if x.rst then .next (applyReset s)
  else
    match s.phase with
    | .busy => busyCycle x s
    | .idle =>
      match x.cmdValid, x.hbEn with
      | true, true => .refused .hostPortInAcceptingCycle
      | true, false => runCommand x.command (accept s)
      | false, true => hostAccess x (tick s)
      | false, false => .next (tick s)

/-- `s` with the command of a table word driven by the host in the next model cycle, the machine being ready for it. -/
def offerTableWord (s : State) (nbits w : Nat) : State :=
  State.drive [Inputs.ofCommand (commandOfTableWord nbits w)] { s with phase := .idle }

end Sys2Proof.Machine
end

