-- ==== Sys2Proof/Machine/Step.lean ====
section
/-! DEFINITION. The step of the machine: one model cycle on the sample the host drives next. -/

namespace Sys2Proof.Machine

/-- One step. BEIC fetches nothing (R84): the next command is what the host drives on the command port. -/
def step (s : State) : Host.Outcome State Fault Refusal := cycle (sample s) s

/-- `s` with an instruction placed where the next step finds its command: the head of what the host drives (assumption 4). -/
def State.withFetchWord (s : State) (nbits w : Nat) : State := offerTableWord s nbits w

end Sys2Proof.Machine
end

