-- ==== Sys2Proof/Machine/Script.lean ====
section
/-! DEFINITION. What the lines of a command script drive on the ports (`spec/30_encoding.md` rules R111, R112). -/

namespace Sys2Proof.Machine

/-- The samples of a command: one cycle on the command port. -/
def driveInstr (i : Instr) : Inputs := Inputs.ofCommand (encode i)

/-- A number as its 32-bit pattern, `trunc_32(value)` (R111, D26). -/
def pattern32 (v : Int) : Word := BitVec.ofInt 32 v

/-- `HBW a, b0 ; HBW a+1, b1 ; …` for the bytes of a LOAD (R112). -/
def loadWrites (a : Nat) : List Byte → List Inputs
  | [] => []
  | b :: bs => Inputs.hbw (BitVec.ofNat 32 a) b :: loadWrites (a + 1) bs

/-- `LOAD b0, …, b(n−1)`: the writes, then `SETLEN n` (R112, R223). -/
def loadSequence (bs : List Byte) : List Inputs :=
  loadWrites 0 bs ++ [driveInstr (.setlen (BitVec.ofNat 32 bs.length))]

/-- The samples a well-formed line stands for (R111, R112). -/
def ScriptLine.expand : ScriptLine → List Inputs
  | .plain i => [driveInstr i]
  | .wr4 v => [driveInstr (.wr4 (pattern32 v))]
  | .setpos v => [driveInstr (.setpos (pattern32 v))]
  | .setlen v => [driveInstr (.setlen (pattern32 v))]
  | .setkey k v => [driveInstr (.setkey (BitVec.ofNat 2 k) (pattern32 v))]
  | .hbw a b => [Inputs.hbw (BitVec.ofNat 32 a) (BitVec.ofNat 8 b)]
  | .hbr a => [Inputs.hbr (BitVec.ofNat 32 a)]
  | .rewind => [driveInstr (.setpos 0)]
  | .key k0 k1 k2 k3 =>
    [driveInstr (.setkey 0 (pattern32 k0)), driveInstr (.setkey 1 (pattern32 k1)),
      driveInstr (.setkey 2 (pattern32 k2)), driveInstr (.setkey 3 (pattern32 k3))]
  | .load bs => loadSequence (bs.map (BitVec.ofNat 8))
  | .skip n (some p) => [driveInstr (.setpos (BitVec.ofNat 32 (p + n)))]
  | .skip _ none => []

/-- The assembler of R111: an ill-formed line is rejected. -/
def assembleLine (l : ScriptLine) : Option (List Inputs) :=
  if l.wellFormed then some (ScriptLine.expand l) else none

end Sys2Proof.Machine
end

