-- ==== Sys2Proof/Safety.lean ====
section
/-! DEFINITION. The terms claims are stated in: the invariant of the machine (`spec/10_state.md` rules R32, R33, R39, R41),
the written buffer (`spec/70_reset_and_hazards.md` rule R263), the host's duty (R220, R266), a clean log and the states a run
passes (`spec/60_exceptions.md` rule R243). -/

namespace Sys2Proof

open Sys2Proof.Machine

/-- What holds of the machine between steps: legal parameters (R7), `0 ≤ POS ≤ LENGTH ≤ BUF_CAP` (R32, R33), a canonical
BUF that lies below BUF_CAP (R31), STATUS bits 7:4 zero and a CODE that BEIC-1 produces (R39, R40), PHASE = IDLE (R41). -/
structure Inv (s : State) : Prop where
  cfg : s.cfg.wf
  length_le : s.length.toNat ≤ s.cfg.bufCap
  pos_le : s.pos.toNat ≤ s.length.toNat
  buf_wf : s.buf.wf
  buf_below : ∀ a b, s.buf.read a = some b → a < s.cfg.bufCap
  reserved_zero : reservedField s.status = 0
  code_legal : legalCode (codeField s.status)
  idle : s.phase = .idle

/-- Every byte of the buffer proper holds a value: step 1 of R263 is done. -/
def Written (s : State) : Prop := ∀ a, a < s.length.toNat → ∃ b, s.buf.read a = some b

/-- The sample the host drives is within its duty (R220, R266): under `rst` anything is ignored; otherwise the host buffer
port is used only while IDLE, not in an accepting cycle, and at an address below BUF_CAP. -/
def hostDuty (s : State) (x : Inputs) : Prop :=
  x.rst = true ∨ x.hbEn = false ∨ (s.phase = .idle ∧ x.cmdValid = false ∧ x.hbAddr.toNat < s.cfg.bufCap)

/-- The bytes `bs` stand in memory from address `a` on. -/
def holdsBytes (m : Memory) : Nat → List Byte → Prop
  | _, [] => True
  | a, b :: bs => m.read a = some b ∧ holdsBytes m (a + 1) bs

/-- No error response and no UNINIT has been recorded (R243). -/
def clean (s : State) : Prop := s.log = []

/-- The architectural registers and memory of R30 agree (PHASE, the output registers and the model's own fields apart). -/
def sameArchitecture (s t : State) : Prop :=
  t.buf = s.buf ∧ t.length = s.length ∧ t.pos = s.pos ∧ t.key = s.key ∧ t.result = s.result ∧
    t.resultValid = s.resultValid ∧ t.status = s.status

/-- The states that steps lead to from `s`. -/
inductive Reaches (s : State) : State → Prop where
  | refl : Reaches s s
  | step {t u : State} : Reaches s t → Machine.step t = .next u → Reaches s u

end Sys2Proof
end

