-- ==== Sys2Proof/Certificates/Slice0/Obligations.lean ====
section
/-! DEFINITION. The statements about BEIC. Each is a closed `Prop`; the docstring names the rule of `spec/` it formalises. -/

namespace Sys2Proof

open Sys2Proof.Machine

/-! The vocabulary of the statements. -/

/-- `s` after an error response with STATUS `st`, recorded as `e`: everything else is as before (R233, R243). -/
def afterError (s : State) (st : BitVec 8) (e : LogEntry) : State :=
  { s with status := st, phase := .idle, rspValid := true, log := e :: s.log }

/-- `s` after a completion that writes no register of its own (R235). -/
def afterOk (s : State) : State := { s with status := 0x00, phase := .idle, rspValid := true }

/-- `s` after a read command that consumed `n` bytes and returned the pattern `r` (R33, R38, R235). -/
def afterRead (s : State) (n : Nat) (r : DWord) : State :=
  { afterOk s with pos := BitVec.ofNat 32 (s.pos.toNat + n), result := r, resultValid := true }

/-- What UNINIT of command `i` at address `a` leaves: the fault, which names both, and the log with its entry (R236, R243). -/
def uninitFault (i : Instr) (a : Nat) (s : State) : Fault := .uninit i a (.uninit i a :: s.log)

/-- `s` after E_BOUNDS in command `i` (R231). -/
def afterBounds (i : Instr) (s : State) : State := afterError s 0x01 (.errorResponse i .eBounds)

/-- `s` as the block is when it runs the command offered in the next sample: the sample is used up, PHASE is BUSY (R41). -/
def whileBusy (s : State) : State :=
  { s with inputs := s.inputs.tail, rspValid := false, hbRdataValid := false, draws := s.draws + 1, phase := .busy }

/-- The 32-bit word of four bytes, big-endian (R14). -/
def word4 (b0 b1 b2 b3 : Byte) : Word := b0 ++ b1 ++ b2 ++ b3

/-- The bytes a read command with a fixed width consumes (R140). -/
def fixedWidth : Instr → Option Nat
  | .rd1u | .rd1s | .rdbool => some 1
  | .rd2u | .rd2s => some 2
  | .rd3u => some 3
  | .rd4u | .rd4s => some 4
  | .rd8u => some 8
  | .smartu | .smarts | .smart4m | .smart4u | .wr4 _ | .decrypt | .setpos _ | .setlen _ | .clrkey | .setkey _ _ => none

/-- The bytes of the short and of the long form of a smart command (R171). -/
def smartWidths : Instr → Option (Nat × Nat)
  | .smartu | .smarts => some (1, 2)
  | .smart4m | .smart4u => some (2, 4)
  | .rd1u | .rd1s | .rd2u | .rd2s | .rd3u | .rd4u | .rd4s | .rd8u | .rdbool | .wr4 _ | .decrypt
  | .setpos _ | .setlen _ | .clrkey | .setkey _ _ => none

/-- The least and the greatest number a read command returns (R141, R176). -/
def numberRange : Instr → Int × Int
  | .rd1u => (0, 255)
  | .rd1s => (-128, 127)
  | .rd2u => (0, 65535)
  | .rd2s => (-32768, 32767)
  | .rd3u => (0, 16777215)
  | .rd4u => (0, 2 ^ 32 - 1)
  | .rd4s => (-2 ^ 31, 2 ^ 31 - 1)
  | .rd8u => (0, 2 ^ 64 - 1)
  | .rdbool => (0, 1)
  | .smartu => (0, 32767)
  | .smarts => (-16384, 16383)
  | .smart4m => (0, 2 ^ 31 - 1)
  | .smart4u => (-2 ^ 31, 32767)
  | .wr4 _ | .decrypt | .setpos _ | .setlen _ | .clrkey | .setkey _ _ => (0, 0)

/-- One round of R191 with the table's `sum` and key index for z, then for y. -/
def tableRound (K : Key) (row : Word × BitVec 2 × Word × BitVec 2) (yz : Word × Word) : Word × Word :=
  let y := yz.1
  let z := yz.2 - ((((y <<< 4) ^^^ (y >>> 5)) + y) ^^^ (row.1 + K.get row.2.1))
  (y - ((((z <<< 4) ^^^ (z >>> 5)) + z) ^^^ (row.2.2.1 + K.get row.2.2.2)), z)

/-- Rounds 1 to 16 of the key schedule of R191. -/
def scheduleFirstHalf : List (Word × BitVec 2 × Word × BitVec 2) :=
  [(0xC6EF3720, 2, 0x28B7BD67, 3), (0x28B7BD67, 3, 0x8A8043AE, 2), (0x8A8043AE, 0, 0xEC48C9F5, 1),
   (0xEC48C9F5, 1, 0x4E11503C, 0), (0x4E11503C, 2, 0xAFD9D683, 3), (0xAFD9D683, 2, 0x11A25CCA, 2),
   (0x11A25CCA, 3, 0x736AE311, 1), (0x736AE311, 0, 0xD5336958, 0), (0xD5336958, 1, 0x36FBEF9F, 3),
   (0x36FBEF9F, 1, 0x98C475E6, 2), (0x98C475E6, 2, 0xFA8CFC2D, 1), (0xFA8CFC2D, 3, 0x5C558274, 0),
   (0x5C558274, 0, 0xBE1E08BB, 3), (0xBE1E08BB, 1, 0x1FE68F02, 2), (0x1FE68F02, 1, 0x81AF1549, 1),
   (0x81AF1549, 2, 0xE3779B90, 0)]

/-- Rounds 17 to 32 of the key schedule of R191. -/
def scheduleSecondHalf : List (Word × BitVec 2 × Word × BitVec 2) :=
  [(0xE3779B90, 3, 0x454021D7, 3), (0x454021D7, 0, 0xA708A81E, 2), (0xA708A81E, 1, 0x08D12E65, 1),
   (0x08D12E65, 1, 0x6A99B4AC, 0), (0x6A99B4AC, 2, 0xCC623AF3, 3), (0xCC623AF3, 3, 0x2E2AC13A, 2),
   (0x2E2AC13A, 0, 0x8FF34781, 1), (0x8FF34781, 0, 0xF1BBCDC8, 0), (0xF1BBCDC8, 1, 0x5384540F, 3),
   (0x5384540F, 2, 0xB54CDA56, 2), (0xB54CDA56, 3, 0x1715609D, 1), (0x1715609D, 0, 0x78DDE6E4, 0),
   (0x78DDE6E4, 0, 0xDAA66D2B, 3), (0xDAA66D2B, 1, 0x3C6EF372, 2), (0x3C6EF372, 2, 0x9E3779B9, 1),
   (0x9E3779B9, 3, 0x00000000, 0)]

/-- `n` rounds of the forward XTEA encipherment of `spec/95_test_vectors.md` §1.3, from `sum` on. PRESUMED (safe,
assumption 8): the spec marks it "from general knowledge"; it is no command of BEIC, only the other side of R196. -/
def encipherRounds (K : Key) : Nat → Word → Word → Word → Word × Word
  | 0, y, z, _ => (y, z)
  | n + 1, y, z, sum =>
    let y' := y + ((((z <<< 4) ^^^ (z >>> 5)) + z) ^^^ (sum + K.get (sum.extractLsb' 0 2)))
    let sum' := delta + sum
    let z' := z + ((((y' <<< 4) ^^^ (y' >>> 5)) + y') ^^^ (sum' + K.get ((sum' >>> 11).extractLsb' 0 2)))
    encipherRounds K n y' z' sum'

/-- The forward encipherment of one block: 32 rounds from `sum = 0` (95 §1.3). -/
def encipher (y z : Word) (K : Key) : Word × Word := encipherRounds K 32 y z 0

end Sys2Proof

section

open Sys2Proof Sys2Proof.Machine

/-! ## Reset and the ports -/

/-- R47: what every piece of state holds after reset, for any parameters, and that with LENGTH = 0 every read and write command
raises E_BOUNDS. (The empty log is the model's, R243; that `State.reset` is one such state rests on assumption 2.) -/
def Obligations.ResetStateIsAsSpecified : Prop :=
  (∀ c : Config, let s := State.resetWith c
    s.cfg = c ∧ (∀ a, s.buf.read a = none) ∧ s.length = 0 ∧ s.pos = 0 ∧ (∀ i, s.key.get i = 0) ∧
    s.resultValid = false ∧ codeField s.status = 0xF ∧ reservedField s.status = 0 ∧ s.phase = .idle ∧
    s.hbRdataValid = false ∧ s.log = [] ∧
    ∀ i, (signednessOf i ≠ none ∨ ∃ w, i = .wr4 w) → exec i s = .next (afterBounds i s)) ∧
  ∃ c : Config, c.wf ∧ State.reset = State.resetWith c

/-- R260, R261: a cycle with `rst` high gives every piece of state its reset value, from any state (BUSY or not) and whatever
else the host drives in that cycle; `cmd_ready` and `rsp_valid` are low while `rst` is high. (That the log, R243, the parameters and
what the host drives next stay is the model's choice, assumption 12.) -/
def Obligations.ResetCycleRestoresReset : Prop :=
  ∀ (s : State) (x : Inputs) (xs : List Inputs), s.inputs = x :: xs → x.rst = true →
    ∃ t, step s = .next t ∧ t.inputs = xs ∧ t.log = s.log ∧ t.cfg = s.cfg ∧
      (∀ a, t.buf.read a = none) ∧ t.length = 0 ∧ t.pos = 0 ∧ (∀ i, t.key.get i = 0) ∧ t.resultValid = false ∧
      t.status = 0x0F ∧ t.phase = .idle ∧ t.rspValid = false ∧ t.hbRdataValid = false ∧
      (outputs true s).cmdReady = false ∧ (outputs true s).rspValid = false

/-- R46: the output ports are copies of the registers (while `rst` is low). -/
def Obligations.OutputPortsCopyRegisters : Prop :=
  ∀ s : State, (outputs false s).posO = s.pos ∧ (outputs false s).lenO = s.length ∧
    (outputs false s).rspStatus = s.status.extractLsb' 0 4 ∧
    (s.resultValid = true → (outputs false s).rspResult = s.result) ∧
    ((outputs false s).cmdReady = true ↔ s.phase = .idle)

/-- R221: HBW writes one byte anywhere below BUF_CAP and changes nothing else of the architecture. -/
def Obligations.HostWriteStoresOneByte : Prop :=
  ∀ (s : State) (a : Word) (b : Byte) (xs : List Inputs), s.phase = .idle → a.toNat < s.cfg.bufCap →
    s.inputs = Inputs.hbw a b :: xs →
    ∃ m : Memory, step s = .next
        { s with buf := m, inputs := xs, rspValid := false, hbRdataValid := false, draws := s.draws + 1 } ∧
      m.read a.toNat = some b ∧ ∀ x, x ≠ a.toNat → m.read x = s.buf.read x

/-- R222: HBR shows the byte on `hb_rdata` in the next cycle and changes nothing of the architecture; a byte with no value
gives the host some byte (a free value: the statement holds for every value of it), not a fault. -/
def Obligations.HostReadShowsTheByte : Prop :=
  ∀ (s : State) (a : Word) (xs : List Inputs), s.phase = .idle → a.toNat < s.cfg.bufCap → s.inputs = Inputs.hbr a :: xs →
    ∃ b : Byte, step s = .next
        { s with hbRdata := b, hbRdataValid := true, inputs := xs, rspValid := false, draws := s.draws + 1 } ∧
      (∀ c, s.buf.read a.toNat = some c → b = c) ∧
      ∀ t, step s = .next t → (outputs false t).hbRdata = b ∧ sameArchitecture s t

/-- R220: the model refuses exactly the samples that breach the host's duty, and no command is ever refused. (A refusal
is the model's form of "the model has no move", assumption 11.) -/
def Obligations.RefusalIsExactlyHostBreach : Prop :=
  ∀ s : State, (∃ r, step s = .refused r) ↔ ¬ hostDuty s (sample s)

/-- A cycle in which the host drives nothing changes no architectural state, and `rsp_valid` lasts one cycle (R44). (That it is one
step is the model's choice, assumption 5; that it completes nothing in a state with PHASE = BUSY, which no run reaches, is
assumption 6.) -/
def Obligations.QuietCycleKeepsArchitecture : Prop :=
  ∀ s : State, s.inputs = [] →
    ∃ t, step s = .next t ∧ sameArchitecture s t ∧ t.phase = s.phase ∧ t.rspValid = false ∧ t.log = s.log ∧ t.cfg = s.cfg

/-- R41, R266: while BUSY no command is accepted, and one that is offered is held: no error, no loss. (No run reaches
BUSY between steps; that such a cycle passes without completing anything is the model's choice, assumption 6.) -/
def Obligations.BusyHoldsOfferedCommand : Prop :=
  ∀ (s : State) (x : Inputs) (xs : List Inputs), s.inputs = x :: xs → s.phase = .busy → x.rst = false → x.cmdValid = true →
    x.hbEn = false →
    ∃ t, step s = .next t ∧ t.inputs = s.inputs ∧ sameArchitecture s t ∧ t.phase = .busy ∧ t.log = s.log

/-! ## Encoding -/

/-- R107: each legal command word decodes to its command, with ARG and KI as its operands. -/
def Obligations.OpcodeMapDecodes : Prop :=
  ∀ a : Word,
    decode ⟨0x00, a⟩ = .legal .rd1u ∧ decode ⟨0x20, a⟩ = .legal .rd1s ∧ decode ⟨0x01, a⟩ = .legal .rd2u ∧
    decode ⟨0x21, a⟩ = .legal .rd2s ∧ decode ⟨0x02, a⟩ = .legal .rd3u ∧ decode ⟨0x03, a⟩ = .legal .rd4u ∧
    decode ⟨0x23, a⟩ = .legal .rd4s ∧ decode ⟨0x07, a⟩ = .legal .rd8u ∧ decode ⟨0x10, a⟩ = .legal .rdbool ∧
    decode ⟨0x80, a⟩ = .legal (.wr4 a) ∧ decode ⟨0x40, a⟩ = .legal .smartu ∧ decode ⟨0x41, a⟩ = .legal .smarts ∧
    decode ⟨0x42, a⟩ = .legal .smart4m ∧ decode ⟨0x43, a⟩ = .legal .smart4u ∧ decode ⟨0x81, a⟩ = .legal .decrypt ∧
    decode ⟨0xC0, a⟩ = .legal (.setpos a) ∧ decode ⟨0xC1, a⟩ = .legal (.setlen a) ∧ decode ⟨0xC2, a⟩ = .legal .clrkey ∧
    decode ⟨0xC4, a⟩ = .legal (.setkey 0 a) ∧ decode ⟨0xC5, a⟩ = .legal (.setkey 1 a) ∧
    decode ⟨0xC6, a⟩ = .legal (.setkey 2 a) ∧ decode ⟨0xC7, a⟩ = .legal (.setkey 3 a)

/-- Decode of encode is the command, for every command with every operand; and so through the 40-bit table word. -/
def Obligations.DecodeOfEncodeIsIdentity : Prop :=
  ∀ i : Instr, decode (encode i) = .legal i ∧ (encode i).wellFormed = true ∧
    decodeTableWord 40 ((encode i).op.toNat + 256 * (encode i).arg.toNat) = some i

/-- R109: a word that decodes is the word its command encodes to, and its ARG too where the command has an operand. -/
def Obligations.EncodeOfDecodeIsTheWord : Prop :=
  ∀ (c : Command) (i : Instr), decode c = .legal i →
    (encode i).op = c.op ∧ (i.takesNoOperand = false → encode i = c)

/-- R108: a word is ILLEGAL exactly when the fields of its format (R101 to R105) do not allow it, and exactly 234 of the
256 words are reserved. -/
def Obligations.ReservedWordsAreTheIllFormed : Prop :=
  (∀ c : Command, decode c = .illegal c.op ↔ c.wellFormed = false) ∧
  ((List.range 256).filter (fun w => !(Command.mk (BitVec.ofNat 8 w) 0).wellFormed)).length = 234

/-- R106, R109: which command a word is does not depend on ARG (for two ARGs the word is legal or ILLEGAL alike, and a legal
one decodes to one and the same command), and a command without an operand ignores ARG altogether. -/
def Obligations.CommandsWithoutOperandIgnoreArg : Prop :=
  ∀ (op : Byte) (a a' : Word),
    ((∃ i, decode ⟨op, a⟩ = .legal i) ↔ ∃ i, decode ⟨op, a'⟩ = .legal i) ∧
    (∀ i i', decode ⟨op, a⟩ = .legal i → decode ⟨op, a'⟩ = .legal i' → encodeOp i = encodeOp i') ∧
    ∀ i, decode ⟨op, a⟩ = .legal i → i.takesNoOperand = true → decode ⟨op, a'⟩ = .legal i

/-! ## The step -/

/-- R41, R77, R100: in IDLE, with `rst` low and the host port unused, an offered command that decodes to `i` is accepted
(the sample is used up, PHASE is BUSY) and the step is the meaning of `i`. (One step for the command and its response:
assumption 5.) -/
def Obligations.StepRunsDecodedCommand : Prop :=
  ∀ (s : State) (x : Inputs) (xs : List Inputs) (i : Instr), s.inputs = x :: xs → s.phase = .idle → x.rst = false →
    x.cmdValid = true → x.hbEn = false → decode ⟨x.cmdOp, x.cmdArg⟩ = .legal i → step s = exec i (whileBusy s)

/-- R232: a reserved command word raises E_ILLEGAL, whatever ARG and the state are, and changes nothing else. -/
def Obligations.ReservedWordRaisesIllegal : Prop :=
  ∀ (s : State) (x : Inputs) (xs : List Inputs), s.inputs = x :: xs → s.phase = .idle → x.rst = false →
    x.cmdValid = true → x.hbEn = false → Command.wellFormed ⟨x.cmdOp, x.cmdArg⟩ = false →
    step s = .next (afterError (whileBusy s) 0x02 (.illegalWord x.cmdOp))

/-! ## The big-endian integer codec -/

/-- R130: RD1U. -/
def Obligations.Rd1uReadsOneByteUnsigned : Prop :=
  (∀ arg, decode ⟨0x00, arg⟩ = .legal .rd1u) ∧
  ∀ s : State, (¬ s.pos.toNat + 1 ≤ s.length.toNat → exec .rd1u s = .next (afterBounds .rd1u s)) ∧
    ∀ b0, s.pos.toNat + 1 ≤ s.length.toNat → holdsBytes s.buf s.pos.toNat [b0] →
      exec .rd1u s = .next (afterRead s 1 (b0.setWidth 64))

/-- R131: RD1S; the number is the two's-complement value of the byte. -/
def Obligations.Rd1sReadsOneByteSigned : Prop :=
  (∀ arg, decode ⟨0x20, arg⟩ = .legal .rd1s) ∧
  ∀ s : State, (¬ s.pos.toNat + 1 ≤ s.length.toNat → exec .rd1s s = .next (afterBounds .rd1s s)) ∧
    ∀ b0, s.pos.toNat + 1 ≤ s.length.toNat → holdsBytes s.buf s.pos.toNat [b0] →
      exec .rd1s s = .next (afterRead s 1 (b0.signExtend 64))

/-- R132: RD2U. -/
def Obligations.Rd2uReadsTwoBytesUnsigned : Prop :=
  (∀ arg, decode ⟨0x01, arg⟩ = .legal .rd2u) ∧
  ∀ s : State, (¬ s.pos.toNat + 2 ≤ s.length.toNat → exec .rd2u s = .next (afterBounds .rd2u s)) ∧
    ∀ b0 b1, s.pos.toNat + 2 ≤ s.length.toNat → holdsBytes s.buf s.pos.toNat [b0, b1] →
      exec .rd2u s = .next (afterRead s 2 ((b0 ++ b1).setWidth 64))

/-- R133: RD2S. -/
def Obligations.Rd2sReadsTwoBytesSigned : Prop :=
  (∀ arg, decode ⟨0x21, arg⟩ = .legal .rd2s) ∧
  ∀ s : State, (¬ s.pos.toNat + 2 ≤ s.length.toNat → exec .rd2s s = .next (afterBounds .rd2s s)) ∧
    ∀ b0 b1, s.pos.toNat + 2 ≤ s.length.toNat → holdsBytes s.buf s.pos.toNat [b0, b1] →
      exec .rd2s s = .next (afterRead s 2 ((b0 ++ b1).signExtend 64))

/-- R134: RD3U. -/
def Obligations.Rd3uReadsThreeBytesUnsigned : Prop :=
  (∀ arg, decode ⟨0x02, arg⟩ = .legal .rd3u) ∧
  ∀ s : State, (¬ s.pos.toNat + 3 ≤ s.length.toNat → exec .rd3u s = .next (afterBounds .rd3u s)) ∧
    ∀ b0 b1 b2, s.pos.toNat + 3 ≤ s.length.toNat → holdsBytes s.buf s.pos.toNat [b0, b1, b2] →
      exec .rd3u s = .next (afterRead s 3 ((b0 ++ b1 ++ b2).setWidth 64))

/-- R135: RD4U. -/
def Obligations.Rd4uReadsFourBytesUnsigned : Prop :=
  (∀ arg, decode ⟨0x03, arg⟩ = .legal .rd4u) ∧
  ∀ s : State, (¬ s.pos.toNat + 4 ≤ s.length.toNat → exec .rd4u s = .next (afterBounds .rd4u s)) ∧
    ∀ b0 b1 b2 b3, s.pos.toNat + 4 ≤ s.length.toNat → holdsBytes s.buf s.pos.toNat [b0, b1, b2, b3] →
      exec .rd4u s = .next (afterRead s 4 ((word4 b0 b1 b2 b3).setWidth 64))

/-- R136: RD4S. -/
def Obligations.Rd4sReadsFourBytesSigned : Prop :=
  (∀ arg, decode ⟨0x23, arg⟩ = .legal .rd4s) ∧
  ∀ s : State, (¬ s.pos.toNat + 4 ≤ s.length.toNat → exec .rd4s s = .next (afterBounds .rd4s s)) ∧
    ∀ b0 b1 b2 b3, s.pos.toNat + 4 ≤ s.length.toNat → holdsBytes s.buf s.pos.toNat [b0, b1, b2, b3] →
      exec .rd4s s = .next (afterRead s 4 ((word4 b0 b1 b2 b3).signExtend 64))

/-- R137: RD8U, one bounds test for all 8 bytes, high word then low word. -/
def Obligations.Rd8uReadsEightBytesUnsigned : Prop :=
  (∀ arg, decode ⟨0x07, arg⟩ = .legal .rd8u) ∧
  ∀ s : State, (¬ s.pos.toNat + 8 ≤ s.length.toNat → exec .rd8u s = .next (afterBounds .rd8u s)) ∧
    ∀ b0 b1 b2 b3 b4 b5 b6 b7, s.pos.toNat + 8 ≤ s.length.toNat →
      holdsBytes s.buf s.pos.toNat [b0, b1, b2, b3, b4, b5, b6, b7] →
      exec .rd8u s = .next (afterRead s 8 (word4 b0 b1 b2 b3 ++ word4 b4 b5 b6 b7))

/-- R138: RDBOOL; byte 1 is true, byte 0 is false, any other byte gives the parameter BOOL_OTHER. -/
def Obligations.RdboolReadsOneByteBoolean : Prop :=
  (∀ arg, decode ⟨0x10, arg⟩ = .legal .rdbool) ∧
  ∀ s : State, (¬ s.pos.toNat + 1 ≤ s.length.toNat → exec .rdbool s = .next (afterBounds .rdbool s)) ∧
    ∀ b0, s.pos.toNat + 1 ≤ s.length.toNat → holdsBytes s.buf s.pos.toNat [b0] →
      (b0 = 1 → exec .rdbool s = .next (afterRead s 1 1)) ∧
      (b0 = 0 → exec .rdbool s = .next (afterRead s 1 0)) ∧
      (b0 ≠ 0 → b0 ≠ 1 → exec .rdbool s = .next (afterRead s 1 (if s.cfg.boolOther then 1 else 0)))

/-- R139: WR4 stores the word most significant byte first at POS .. POS+3, advances POS by 4, and changes no other byte and
no other register but STATUS; out of bounds no byte is written. -/
def Obligations.Wr4WritesFourBytesBigEndian : Prop :=
  ∀ (s : State) (w : Word), decode ⟨0x80, w⟩ = .legal (.wr4 w) ∧
    (¬ s.pos.toNat + 4 ≤ s.length.toNat → exec (.wr4 w) s = .next (afterBounds (.wr4 w) s)) ∧
    (s.pos.toNat + 4 ≤ s.length.toNat → ∃ m : Memory,
      exec (.wr4 w) s = .next { afterOk s with buf := m, pos := BitVec.ofNat 32 (s.pos.toNat + 4) } ∧
      holdsBytes m s.pos.toNat
        [w.extractLsb' 24 8, w.extractLsb' 16 8, w.extractLsb' 8 8, w.extractLsb' 0 8] ∧
      ∀ a, (a < s.pos.toNat ∨ s.pos.toNat + 4 ≤ a) → m.read a = s.buf.read a)

/-- R14: `MemRead(a, n)` is the big-endian value of the n bytes, and `MemWrite(a, n, v)` puts byte `v[8(n−1−i)+7 : 8(n−1−i)]`
at a + i and leaves every other byte alone; so reading back gives the value. A byte with no value stops
`MemRead`; that it stops at the lowest such address is the model's choice, assumption 16. -/
def Obligations.MemReadAndMemWriteAreBigEndian : Prop :=
  ∀ (m : Memory) (a : Nat),
    (∀ bs : List Byte, holdsBytes m a bs →
      memRead m a bs.length = .ok (bs.foldl (fun v b => v * 256 + b.toNat) 0)) ∧
    (∀ n k, k < n → (∀ j, j < k → ∃ b, m.read (a + j) = some b) → m.read (a + k) = none →
      memRead m a n = .error (a + k)) ∧
    ∀ n v, v < 256 ^ n →
      (∀ i, i < n → (memWrite m a n v).read (a + i) = some (BitVec.ofNat 8 (v / 2 ^ (8 * (n - 1 - i))))) ∧
      (∀ x, (x < a ∨ a + n ≤ x) → (memWrite m a n v).read x = m.read x) ∧
      memRead (memWrite m a n v) a n = .ok v

/-- R143: `SETPOS p ; WR4 w ; SETPOS p ; RD4U` ends with RESULT = zext_64(w) and POS = p + 4, and with RD4S in the last
place with RESULT = sext_64(sint_32(w)). -/
def Obligations.WriteThenReadRoundTrips : Prop :=
  ∀ (s : State) (p w : Word) (xs : List Inputs) (i : Instr), s.phase = .idle → p.toNat + 4 ≤ s.length.toNat →
    (i = .rd4u ∨ i = .rd4s) →
    s.inputs = driveInstr (.setpos p) :: driveInstr (.wr4 w) :: driveInstr (.setpos p) :: driveInstr i :: xs →
    ∃ t : State, core.run 4 s = .next t ∧ t.result = (if i = .rd4u then w.setWidth 64 else w.signExtend 64) ∧
      t.resultValid = true ∧ t.pos.toNat = p.toNat + 4 ∧ t.log = s.log ∧ t.inputs = xs ∧
      ∀ a, (a < p.toNat ∨ p.toNat + 4 ≤ a) → t.buf.read a = s.buf.read a

/-- R142: where RDnU completes with OK, RDnS of the same bytes does too; the two numbers differ exactly when the top bit of
the first byte is set, and then by 2^(8n). -/
def Obligations.SignedAndUnsignedReadsDifferByTopBit : Prop :=
  ∀ (s tu : State) (iu is : Instr) (n : Nat),
    ((iu, is, n) = (.rd1u, .rd1s, 1) ∨ (iu, is, n) = (.rd2u, .rd2s, 2) ∨ (iu, is, n) = (.rd4u, .rd4s, 4)) →
    exec iu s = .next tu → tu.status = 0x00 →
    ∃ (ts : State) (b0 : Byte), exec is s = .next ts ∧ ts.status = 0x00 ∧ s.buf.read s.pos.toNat = some b0 ∧
      hostNumber .signed ts.result = hostNumber .unsigned tu.result - (if b0.msb then 2 ^ (8 * n) else 0)

/-! ## The smart integer decoder -/

/-- R172: SMARTU. -/
def Obligations.SmartuDecodesShortAndLong : Prop :=
  (∀ arg, decode ⟨0x40, arg⟩ = .legal .smartu) ∧
  ∀ s : State, (¬ s.pos.toNat + 1 ≤ s.length.toNat → exec .smartu s = .next (afterBounds .smartu s)) ∧
    (∀ b0, s.pos.toNat + 1 ≤ s.length.toNat → holdsBytes s.buf s.pos.toNat [b0] → b0.msb = false →
      exec .smartu s = .next (afterRead s 1 (b0.setWidth 64))) ∧
    (∀ b0, s.pos.toNat + 1 ≤ s.length.toNat → holdsBytes s.buf s.pos.toNat [b0] → b0.msb = true →
      ¬ s.pos.toNat + 2 ≤ s.length.toNat → exec .smartu s = .next (afterBounds .smartu s)) ∧
    (∀ b0 b1, s.pos.toNat + 2 ≤ s.length.toNat → holdsBytes s.buf s.pos.toNat [b0, b1] → b0.msb = true →
      exec .smartu s = .next (afterRead s 2 (BitVec.ofInt 64 ((b0 ++ b1).toNat - 0x8000))))

/-- R173: SMARTS. -/
def Obligations.SmartsDecodesShortAndLong : Prop :=
  (∀ arg, decode ⟨0x41, arg⟩ = .legal .smarts) ∧
  ∀ s : State, (¬ s.pos.toNat + 1 ≤ s.length.toNat → exec .smarts s = .next (afterBounds .smarts s)) ∧
    (∀ b0, s.pos.toNat + 1 ≤ s.length.toNat → holdsBytes s.buf s.pos.toNat [b0] → b0.msb = false →
      exec .smarts s = .next (afterRead s 1 (BitVec.ofInt 64 (b0.toNat - 0x40)))) ∧
    (∀ b0, s.pos.toNat + 1 ≤ s.length.toNat → holdsBytes s.buf s.pos.toNat [b0] → b0.msb = true →
      ¬ s.pos.toNat + 2 ≤ s.length.toNat → exec .smarts s = .next (afterBounds .smarts s)) ∧
    (∀ b0 b1, s.pos.toNat + 2 ≤ s.length.toNat → holdsBytes s.buf s.pos.toNat [b0, b1] → b0.msb = true →
      exec .smarts s = .next (afterRead s 2 (BitVec.ofInt 64 ((b0 ++ b1).toNat - 0xC000))))

/-- R174: SMART4M; the long form clears bit 31. -/
def Obligations.Smart4mDecodesShortAndLong : Prop :=
  (∀ arg, decode ⟨0x42, arg⟩ = .legal .smart4m) ∧
  ∀ s : State, (¬ s.pos.toNat + 1 ≤ s.length.toNat → exec .smart4m s = .next (afterBounds .smart4m s)) ∧
    (∀ b0, s.pos.toNat + 1 ≤ s.length.toNat → holdsBytes s.buf s.pos.toNat [b0] →
      ¬ s.pos.toNat + (if b0.msb then 4 else 2) ≤ s.length.toNat → exec .smart4m s = .next (afterBounds .smart4m s)) ∧
    (∀ b0 b1, s.pos.toNat + 2 ≤ s.length.toNat → holdsBytes s.buf s.pos.toNat [b0, b1] → b0.msb = false →
      exec .smart4m s = .next (afterRead s 2 ((b0 ++ b1).setWidth 64))) ∧
    (∀ b0 b1 b2 b3, s.pos.toNat + 4 ≤ s.length.toNat → holdsBytes s.buf s.pos.toNat [b0, b1, b2, b3] → b0.msb = true →
      exec .smart4m s = .next (afterRead s 4 ((word4 b0 b1 b2 b3 &&& 0x7FFFFFFF).setWidth 64)))

/-- R175: SMART4U; the long form is the full signed 4-byte value. -/
def Obligations.Smart4uDecodesShortAndLong : Prop :=
  (∀ arg, decode ⟨0x43, arg⟩ = .legal .smart4u) ∧
  ∀ s : State, (¬ s.pos.toNat + 1 ≤ s.length.toNat → exec .smart4u s = .next (afterBounds .smart4u s)) ∧
    (∀ b0, s.pos.toNat + 1 ≤ s.length.toNat → holdsBytes s.buf s.pos.toNat [b0] →
      ¬ s.pos.toNat + (if b0.msb then 4 else 2) ≤ s.length.toNat → exec .smart4u s = .next (afterBounds .smart4u s)) ∧
    (∀ b0 b1, s.pos.toNat + 2 ≤ s.length.toNat → holdsBytes s.buf s.pos.toNat [b0, b1] → b0.msb = false →
      exec .smart4u s = .next (afterRead s 2 ((b0 ++ b1).setWidth 64))) ∧
    (∀ b0 b1 b2 b3, s.pos.toNat + 4 ≤ s.length.toNat → holdsBytes s.buf s.pos.toNat [b0, b1, b2, b3] → b0.msb = true →
      exec .smart4u s = .next (afterRead s 4 ((word4 b0 b1 b2 b3).signExtend 64)))

/-- R141, R176: a read command that completes returns a number in its range, read with its signedness of R110. -/
def Obligations.ReadResultsLieInTheirRanges : Prop :=
  ∀ (i : Instr) (sg : Signedness) (s t : State), signednessOf i = some sg → exec i s = .next t → t.status = 0x00 →
    t.resultValid = true ∧ (numberRange i).1 ≤ hostNumber sg t.result ∧ hostNumber sg t.result ≤ (numberRange i).2

/-- R38: only a read command that completes with OK writes RESULT. -/
def Obligations.OnlyCompletedReadsWriteResult : Prop :=
  ∀ (i : Instr) (s t : State), exec i s = .next t → (signednessOf i = none ∨ t.status ≠ 0x00) →
    t.result = s.result ∧ t.resultValid = s.resultValid

/-! ## The block decryptor -/

/-- R191: the decipherment of a block is the 32 rounds of the key-schedule table, in order. -/
def Obligations.DeciphermentFollowsKeySchedule : Prop :=
  ∀ (y z : Word) (K : Key),
    xteaDec y z K = (scheduleFirstHalf ++ scheduleSecondHalf).foldl (fun yz row => tableRound K row yz) (y, z)

/-- R196: XTEA_DEC and the forward encipherment undo each other for every key, so XTEA_DEC is a bijection.
(The forward cipher is PRESUMED, from general knowledge: assumption 8.) -/
def Obligations.DeciphermentInvertsEncipherment : Prop :=
  ∀ (y z : Word) (K : Key),
    encipher (xteaDec y z K).1 (xteaDec y z K).2 K = (y, z) ∧
    xteaDec (encipher y z K).1 (encipher y z K).2 K = (y, z)

/-- R193 (with R192's `nblocks`, and R195): OP 0x81 is DECRYPT. With its block bytes written it completes for every LENGTH;
each block `i` below `nblocks = floor((LENGTH − 5) / 8)` (0 if LENGTH < 5) is replaced by its own decipherment under KEY, every
other byte is unchanged, and so is every register but STATUS. A block byte with no value is UNINIT. -/
def Obligations.DecryptDeciphersEveryBlock : Prop :=
  (∀ arg, decode ⟨0x81, arg⟩ = .legal .decrypt) ∧
  ∀ (s : State) (n : Nat), n = (if 5 ≤ s.length.toNat then (s.length.toNat - 5) / 8 else 0) →
    (∀ b : Nat → Byte, (∀ j, j < 8 * n → s.buf.read (5 + j) = some (b j)) →
      ∃ m : Memory, exec .decrypt s = .next { afterOk s with buf := m } ∧
        (∀ i, i < n →
          let yz := xteaDec (word4 (b (8 * i)) (b (8 * i + 1)) (b (8 * i + 2)) (b (8 * i + 3)))
            (word4 (b (8 * i + 4)) (b (8 * i + 5)) (b (8 * i + 6)) (b (8 * i + 7))) s.key
          holdsBytes m (5 + 8 * i)
            [yz.1.extractLsb' 24 8, yz.1.extractLsb' 16 8, yz.1.extractLsb' 8 8, yz.1.extractLsb' 0 8,
             yz.2.extractLsb' 24 8, yz.2.extractLsb' 16 8, yz.2.extractLsb' 8 8, yz.2.extractLsb' 0 8]) ∧
        ∀ a, (a < 5 ∨ 5 + 8 * n ≤ a) → m.read a = s.buf.read a) ∧
    ∀ j, j < 8 * n → s.buf.read (5 + j) = none → ∃ a, exec .decrypt s = .fault (uninitFault .decrypt a s)

/-- R192: with LENGTH < 13 there is no block, and DECRYPT changes nothing but STATUS (and answers, whatever BUF holds). -/
def Obligations.DecryptOfShortBufferChangesNothing : Prop :=
  ∀ s : State, s.length.toNat < 13 → exec .decrypt s = .next (afterOk s)

/-! ## The control commands -/

/-- R210: SETPOS. -/
def Obligations.SetposSetsCursorWithinLength : Prop :=
  ∀ (s : State) (p : Word), decode ⟨0xC0, p⟩ = .legal (.setpos p) ∧
    (p.toNat > s.length.toNat → exec (.setpos p) s = .next (afterError s 0x03 (.errorResponse (.setpos p) .eArg))) ∧
    (p.toNat ≤ s.length.toNat → exec (.setpos p) s = .next { afterOk s with pos := p })

/-- R211: SETLEN. -/
def Obligations.SetlenSetsLengthAndRewinds : Prop :=
  ∀ (s : State) (n : Word), decode ⟨0xC1, n⟩ = .legal (.setlen n) ∧
    (n.toNat > s.cfg.bufCap → exec (.setlen n) s = .next (afterError s 0x03 (.errorResponse (.setlen n) .eArg))) ∧
    (n.toNat ≤ s.cfg.bufCap → exec (.setlen n) s = .next { afterOk s with length := n, pos := 0 })

/-- R212: SETKEY writes one key word and STATUS; the three other words are unchanged. -/
def Obligations.SetkeyWritesOneKeyWord : Prop :=
  ∀ (s : State) (ki : BitVec 2) (w : Word), decode ⟨0xC4 + ki.setWidth 8, w⟩ = .legal (.setkey ki w) ∧
    ∃ k : Key, exec (.setkey ki w) s = .next { afterOk s with key := k } ∧
      k.get ki = w ∧ ∀ j, j ≠ ki → k.get j = s.key.get j

/-- R213: CLRKEY. -/
def Obligations.ClrkeyZeroesTheKey : Prop :=
  (∀ arg, decode ⟨0xC2, arg⟩ = .legal .clrkey) ∧
  ∀ s : State, ∃ k : Key, exec .clrkey s = .next { afterOk s with key := k } ∧ ∀ j, k.get j = 0

/-- R223: from any IDLE state with room, the construction sequence `HBW 0, b0 ; … ; HBW n−1, b(n−1) ; SETLEN n` runs without
an error and leaves `BUF[0..n−1]` the bytes, LENGTH = n and POS = 0. -/
def Obligations.LoadSequenceBuildsTheBuffer : Prop :=
  ∀ (s : State) (bs : List Byte) (xs : List Inputs), s.phase = .idle → s.cfg.wf → bs.length ≤ s.cfg.bufCap →
    s.inputs = loadSequence bs ++ xs →
    ∃ t : State, core.run (bs.length + 1) s = .next t ∧ holdsBytes t.buf 0 bs ∧ t.length.toNat = bs.length ∧ t.pos = 0 ∧
      t.status = 0x00 ∧ t.key = s.key ∧ t.result = s.result ∧ t.log = s.log ∧ t.inputs = xs ∧
      ∀ a, bs.length ≤ a → t.buf.read a = s.buf.read a

/-- R112: the assembler takes each pseudo-instruction as its expansion: `REWIND` is `SETPOS 0`; `KEY k0, k1, k2, k3` is four
SETKEY commands, each word the 32-bit pattern of its number; `LOAD` is `HBW 0, b0 ; … ; SETLEN n`; `SKIP n` is `SETPOS p + n` where
the author knows p, and is rejected otherwise. Run from any IDLE state, REWIND sets POS to 0 and KEY sets the key; each
changes nothing else but STATUS. (A command is one step and uses up one sample: assumption 5.) -/
def Obligations.RewindAndKeyPseudosRun : Prop :=
  assembleLine .rewind = some [driveInstr (.setpos 0)] ∧
  (∀ k0 k1 k2 k3 : Int, assembleLine (.key k0 k1 k2 k3) = some
    [driveInstr (.setkey 0 (BitVec.ofInt 32 k0)), driveInstr (.setkey 1 (BitVec.ofInt 32 k1)),
      driveInstr (.setkey 2 (BitVec.ofInt 32 k2)), driveInstr (.setkey 3 (BitVec.ofInt 32 k3))]) ∧
  (∀ bs : List Byte, bs.length < 2 ^ 32 →
    assembleLine (.load (bs.map BitVec.toNat)) = some (loadSequence bs) ∧
    loadSequence bs = bs.mapIdx (fun a b => Inputs.hbw (BitVec.ofNat 32 a) b) ++
      [driveInstr (.setlen (BitVec.ofNat 32 bs.length))]) ∧
  (∀ n p : Nat, p + n < 2 ^ 32 →
    assembleLine (.skip n (some p)) = some [driveInstr (.setpos (BitVec.ofNat 32 (p + n)))] ∧
    assembleLine (.skip n none) = none) ∧
  ∀ (s : State) (xs : List Inputs), s.phase = .idle →
    (s.inputs = driveInstr (.setpos 0) :: xs →
      core.run 1 s = .next { afterOk s with pos := 0, inputs := xs, hbRdataValid := false, draws := s.draws + 1 }) ∧
    ∀ k0 k1 k2 k3 : Word,
      s.inputs = [driveInstr (.setkey 0 k0), driveInstr (.setkey 1 k1), driveInstr (.setkey 2 k2),
        driveInstr (.setkey 3 k3)] ++ xs →
      core.run 4 s = .next { afterOk s with
        key := { k0 := k0, k1 := k1, k2 := k2, k3 := k3 }, inputs := xs, hbRdataValid := false, draws := s.draws + 4 }

/-! ## Errors, faults, frames -/

/-- R231: E_BOUNDS is answered exactly when the command's byte range exceeds `[0, LENGTH)`, by the commands listed there, the
smart commands after the peek; DECRYPT, SETPOS, SETLEN, SETKEY and CLRKEY never answer it. -/
def Obligations.BoundsErrorExactlyOutOfRange : Prop :=
  ∀ (i : Instr) (s t : State), exec i s = .next t →
    (∀ n, fixedWidth i = some n → (t.status = 0x01 ↔ ¬ n ≤ available s)) ∧
    (∀ w, i = .wr4 w → (t.status = 0x01 ↔ ¬ 4 ≤ available s)) ∧
    (∀ f g, smartWidths i = some (f, g) →
      (t.status = 0x01 ↔ ¬ 1 ≤ available s ∨
        ∃ b0, s.buf.read s.pos.toNat = some b0 ∧ ¬ (if b0.msb then g else f) ≤ available s)) ∧
    (fixedWidth i = none → smartWidths i = none → (∀ w, i ≠ .wr4 w) → t.status ≠ 0x01)

/-- R233: a command that raises an error changes STATUS and nothing else of the machine: BUF, LENGTH, POS, KEY and RESULT
keep their values, the response is given and the block is IDLE; the log takes one entry (R243). Only SETPOS and SETLEN raise
E_ARG (R234). -/
def Obligations.ErrorChangesOnlyStatus : Prop :=
  ∀ (i : Instr) (s t : State), exec i s = .next t → t.status ≠ 0x00 →
    (∃ e, t = afterError s t.status e) ∧
      (t.status = 0x01 ∨ t.status = 0x03 ∧ ∃ p, i = .setpos p ∨ i = .setlen p)

/-- R235: a command that answers without an error sets STATUS to OK and gives one response; the log is unchanged then. -/
def Obligations.CommandAnswersOneResponse : Prop :=
  ∀ (i : Instr) (s t : State), exec i s = .next t →
    t.rspValid = true ∧ t.phase = .idle ∧ (t.status = 0x00 ↔ t.log = s.log)

/-- R236: a command stops only with UNINIT, naming the command and an address in its range below LENGTH whose byte holds no
value; a command is never refused; WR4 and the control commands never stop. (UNINIT ends the run, with the log and its entry: assumption 7.) -/
def Obligations.FaultIsAReadOfAnUnwrittenByte : Prop :=
  ∀ (i : Instr) (s : State), (∀ r, exec i s ≠ .refused r) ∧
    ∀ f, exec i s = .fault f → ∃ a, f = uninitFault i a s ∧ s.buf.read a = none ∧ a < s.length.toNat ∧
      (signednessOf i ≠ none ∧ s.pos.toNat ≤ a ∨ i = .decrypt ∧ 5 ≤ a)

/-- R236: a read command that reaches a byte with no value is UNINIT there, naming the command: a fixed-width read in bounds
at the first such byte of its range, a smart command at the peek, or at the first such byte of the form the peek selects.
(UNINIT ends the run, with the log and its entry: assumption 7. That it names the lowest such address of the range where
several bytes hold no value is the model's choice: assumption 16.) -/
def Obligations.ReadOfUnwrittenByteIsUninit : Prop :=
  ∀ (i : Instr) (s : State),
    (∀ n k, fixedWidth i = some n → s.pos.toNat + n ≤ s.length.toNat → k < n →
      (∀ j, j < k → ∃ b, s.buf.read (s.pos.toNat + j) = some b) → s.buf.read (s.pos.toNat + k) = none →
      exec i s = .fault (uninitFault i (s.pos.toNat + k) s)) ∧
    ∀ f g, smartWidths i = some (f, g) → s.pos.toNat + 1 ≤ s.length.toNat →
      (s.buf.read s.pos.toNat = none → exec i s = .fault (uninitFault i s.pos.toNat s)) ∧
      ∀ b0 k, s.buf.read s.pos.toNat = some b0 → s.pos.toNat + (if b0.msb then g else f) ≤ s.length.toNat →
        k < (if b0.msb then g else f) → (∀ j, j < k → ∃ b, s.buf.read (s.pos.toNat + j) = some b) →
        s.buf.read (s.pos.toNat + k) = none → exec i s = .fault (uninitFault i (s.pos.toNat + k) s)

/-- R78: a read command changes POS, RESULT and STATUS only (and the response and the log). -/
def Obligations.ReadCommandFrame : Prop :=
  ∀ (i : Instr) (s t : State), signednessOf i ≠ none → exec i s = .next t →
    t = { s with
      pos := t.pos, result := t.result, resultValid := t.resultValid, status := t.status,
      phase := t.phase, rspValid := t.rspValid, log := t.log } ∧
    ∀ a, t.buf.read a = s.buf.read a

/-- R77, R139, R193: what the commands that store change: WR4 the four bytes at POS, and POS; DECRYPT its blocks; every byte
outside the stored ones reads as before, and no other register changes but STATUS. -/
def Obligations.StoringCommandFrame : Prop :=
  ∀ s t : State,
    (∀ w, exec (.wr4 w) s = .next t →
      t = { s with buf := t.buf, pos := t.pos, status := t.status, phase := t.phase, rspValid := t.rspValid, log := t.log } ∧
      ∀ a, (a < s.pos.toNat ∨ s.pos.toNat + 4 ≤ a) → t.buf.read a = s.buf.read a) ∧
    (exec .decrypt s = .next t →
      t = { s with buf := t.buf, status := t.status, phase := t.phase, rspValid := t.rspValid } ∧
      ∀ a, (a < 5 ∨ 5 + 8 * nblocks s.length.toNat ≤ a) → t.buf.read a = s.buf.read a)

/-- R210 to R213: what the control commands change: SETPOS only POS, SETLEN only LENGTH and POS, SETKEY and CLRKEY only KEY,
each with STATUS; every byte of BUF reads as before. -/
def Obligations.ControlCommandFrame : Prop :=
  ∀ s t : State,
    (∀ p, exec (.setpos p) s = .next t →
      t = { s with pos := t.pos, status := t.status, phase := t.phase, rspValid := t.rspValid, log := t.log }) ∧
    (∀ n, exec (.setlen n) s = .next t →
      t = { s with
        length := t.length, pos := t.pos, status := t.status, phase := t.phase, rspValid := t.rspValid, log := t.log }) ∧
    (∀ ki w, exec (.setkey ki w) s = .next t →
      t = { s with key := t.key, status := t.status, phase := t.phase, rspValid := t.rspValid }) ∧
    (exec .clrkey s = .next t → t = { s with key := t.key, status := t.status, phase := t.phase, rspValid := t.rspValid })

/-- R71: no command writes a byte at or above LENGTH, and none reads one: a command answers the same on two states that
differ only in such bytes. -/
def Obligations.CommandsStayBelowLength : Prop :=
  ∀ (i : Instr) (s : State) (m : Memory), (∀ a, a < s.length.toNat → m.read a = s.buf.read a) →
    (∀ t, exec i s = .next t → (∀ a, s.length.toNat ≤ a → t.buf.read a = s.buf.read a) ∧
      ∃ m', exec i { s with buf := m } = .next { t with buf := m' } ∧ ∀ a, a < s.length.toNat → m'.read a = t.buf.read a) ∧
    ∀ f, exec i s = .fault f → exec i { s with buf := m } = .fault f

/-- R35: KEY is read by DECRYPT only: any other command does the same whatever KEY holds, and the output ports never show it. -/
def Obligations.KeyIsReadByDecryptOnly : Prop :=
  (∀ (i : Instr) (s : State) (k : Key), i ≠ .decrypt →
    (∀ t, exec i s = .next t → ∃ k', exec i { s with key := k } = .next { t with key := k' } ∧
      ((∀ ki w, i ≠ .setkey ki w) → i ≠ .clrkey → t.key = s.key ∧ k' = k)) ∧
    ∀ f, exec i s = .fault f → exec i { s with key := k } = .fault f) ∧
  ∀ (s : State) (k : Key) (r : Bool), outputs r { s with key := k } = outputs r s

/-! ## Memory form -/

/-- Two canonical memories that read alike at every address are equal data, and every write keeps the canonical form. (The
list form of BUF is the model's, assumption 10.) -/
def Obligations.CanonicalMemoriesAreExtensional : Prop :=
  (∀ m m' : Memory, m.wf → m'.wf → (∀ a, m.read a = m'.read a) → m = m') ∧
  ∀ (m : Memory) (a : Nat) (b : Byte), m.wf → (m.write a b).wf ∧
    ∀ x, (m.write a b).read x = if x = a then some b else m.read x

/-! ## Whole-machine rules -/

/-- R47 with R32, R33, R39, R41: the invariant holds after reset, for any legal parameters, and of `State.reset`. -/
def Obligations.ResetSatisfiesInvariant : Prop :=
  (∀ c : Config, c.wf → Inv (State.resetWith c)) ∧ Inv State.reset

/-- R32, R33, R39, R40, R41: every step from a state with the invariant gives a state with the invariant. -/
def Obligations.EveryStepKeepsInvariant : Prop :=
  ∀ s t : State, Inv s → step s = .next t → Inv t

/-- R243: the sticky log takes every error response and every UNINIT fault, and no step clears it: the log after a step is as
before, and then a response given has STATUS OK, or it has one entry more, and then the step gave an error response; a step
that stops is UNINIT, and its log has that entry more. The parameters never change (R7). (A reset keeps the log: assumption
12; UNINIT ends the run with the log: assumption 7.) -/
def Obligations.LogIsSticky : Prop :=
  ∀ s : State,
    (∀ t, step s = .next t →
      ((t.log = s.log ∧ (t.rspValid = true → t.status = 0x00)) ∨
        ∃ e, t.log = e :: s.log ∧ t.rspValid = true ∧ t.status ≠ 0x00) ∧ t.cfg = s.cfg) ∧
    ∀ f, step s = .fault f → ∃ i a, f = .uninit i a (.uninit i a :: s.log)

/-- R243: over a run, an entry once recorded stays recorded; so a clean log at the end means a clean log all the way, and every
response given on the way has STATUS OK. -/
def Obligations.CleanLogMeansNoErrorOnTheWay : Prop :=
  ∀ s t u : State, Reaches s t → Reaches t u → s.log <:+ u.log ∧
    (clean u → clean t ∧
      ∀ v : State, step t = .next v → Reaches v u → v.rspValid = true → v.status = 0x00)

/-- R267, R268: an accepted command always completes: with the invariant, the buffer written and the host within its duty,
the step answers a next state; and it stops only at a byte with no value. -/
def Obligations.WrittenBufferNeverStops : Prop :=
  ∀ s : State, Inv s → hostDuty s (sample s) → (Written s → ∃ t, step s = .next t) ∧
    ∀ f, step s = .fault f → ∃ i a, f = uninitFault i a s ∧ a < s.length.toNat ∧ s.buf.read a = none

end
end

