-- ==== Sys2Proof/Laws/Memory.lean ====
section
/-! SUPPORT. The laws of BUF: one byte, the canonical form, `MemRead` and `MemWrite`. -/

namespace Sys2Proof.Machine

@[simp] theorem Memory.read_nil (a : Nat) : Memory.read [] a = none := rfl

@[simp] theorem Memory.read_write_same (m : Memory) (a : Nat) (b : Byte) : (Memory.write m a b).read a = some b := by
  induction m with
  | nil => simp [Memory.write, Memory.read]
  | cons x m ih =>
    obtain ⟨k, c⟩ := x
    simp only [Memory.write]
    split
    · simp [Memory.read]
    · split
      · simp [Memory.read]
      · rename_i h; simp [Memory.read, ih, Ne.symm h]

theorem Memory.read_write_ne (m : Memory) {a a' : Nat} (b : Byte) (h : a' ≠ a) :
    (Memory.write m a b).read a' = m.read a' := by
  induction m with
  | nil => simp [Memory.write, Memory.read, h.symm]
  | cons x m ih =>
    obtain ⟨k, c⟩ := x
    simp only [Memory.write]
    split
    · simp [Memory.read, h.symm]
    · split
      · rename_i e; subst e; simp [Memory.read, h.symm]
      · simp [Memory.read, ih]

theorem Memory.read_write (m : Memory) (a a' : Nat) (b : Byte) :
    (Memory.write m a b).read a' = if a' = a then some b else m.read a' := by
  split
  · rename_i h; subst h; simp
  · rename_i h; exact Memory.read_write_ne m b h

/-- The addresses of a written memory: the written one, or one listed before. -/
theorem Memory.mem_write {m : Memory} {a : Nat} {b : Byte} {x : Host.Cell} (h : x ∈ Memory.write m a b) :
    x = (a, b) ∨ x ∈ m := by
  induction m with
  | nil => simpa [Memory.write] using h
  | cons y m ih =>
    obtain ⟨k, c⟩ := y
    simp only [Memory.write] at h
    split at h
    · simpa using h
    · split at h
      · rcases List.mem_cons.1 h with h | h <;> simp [h]
      · rcases List.mem_cons.1 h with h | h
        · simp [h]
        · rcases ih h with h | h <;> simp [h]

/-- A write keeps the canonical form. -/
theorem Memory.wf_write {m : Memory} (h : m.wf) (a : Nat) (b : Byte) : (Memory.write m a b).wf := by
  induction m with
  | nil => simp [Memory.write, Memory.wf]
  | cons y m ih =>
    obtain ⟨k, c⟩ := y
    obtain ⟨hk, hm⟩ := List.pairwise_cons.1 h
    simp only [Memory.write]
    split
    · rename_i hlt
      refine List.pairwise_cons.2 ⟨fun x hx => ?_, h⟩
      rcases List.mem_cons.1 hx with rfl | hx
      · exact hlt
      · exact Nat.lt_trans hlt (hk x hx)
    · split
      · rename_i e; subst e; exact List.pairwise_cons.2 ⟨hk, hm⟩
      · rename_i hlt hne
        refine List.pairwise_cons.2 ⟨fun x hx => ?_, ih hm⟩
        rcases Memory.mem_write hx with rfl | hx
        · show k < a; omega
        · exact hk x hx

/-- A byte that reads has an entry. -/
theorem Memory.mem_of_read {m : Memory} {a : Nat} {b : Byte} (h : m.read a = some b) : (a, b) ∈ m := by
  induction m with
  | nil => simp at h
  | cons y m ih =>
    obtain ⟨k, c⟩ := y
    simp only [Memory.read] at h
    split at h
    · rename_i e; simp_all
    · exact List.mem_cons_of_mem _ (ih h)

/-- `MemRead` answers a value exactly when it reads byte by byte. -/
theorem memRead_succ_ok {m : Memory} {a n v : Nat} :
    memRead m a (n + 1) = .ok v ↔
      ∃ hi b, memRead m a n = .ok hi ∧ m.read (a + n) = some b ∧ v = hi * 256 + b.toNat := by
  simp only [memRead]
  cases memRead m a n with
  | error x => simp
  | ok hi =>
    cases m.read (a + n) with
    | none => simp
    | some b => simp [eq_comm]

/-- Where `MemRead` stops, the byte holds no value and lies in the range (R236). -/
theorem memRead_error {m : Memory} {a n x : Nat} (h : memRead m a n = .error x) :
    m.read x = none ∧ a ≤ x ∧ x < a + n := by
  induction n with
  | zero => simp [memRead] at h
  | succ n ih =>
    simp only [memRead] at h
    cases hm : memRead m a n with
    | error y => rw [hm] at h; simp only [Except.error.injEq] at h; subst h; obtain ⟨h1, h2, h3⟩ := ih hm; exact ⟨h1, h2, by omega⟩
    | ok hi =>
      rw [hm] at h
      cases hb : m.read (a + n) with
      | none => simp only [hb, Except.error.injEq] at h; subst h; exact ⟨hb, by omega, by omega⟩
      | some b => simp [hb] at h

/-- `MemRead` of bytes that all hold a value answers a value. -/
theorem memRead_ok_of_written {m : Memory} {a n : Nat} (h : ∀ x, a ≤ x → x < a + n → ∃ b, m.read x = some b) :
    ∃ v, memRead m a n = .ok v := by
  cases hm : memRead m a n with
  | ok v => exact ⟨v, rfl⟩
  | error x =>
    obtain ⟨hn, h1, h2⟩ := memRead_error hm
    obtain ⟨b, hb⟩ := h x h1 h2
    simp [hn] at hb

/-- The bytes of a value that `MemRead` answered. -/
theorem memRead_ok_written {m : Memory} {a n v : Nat} (h : memRead m a n = .ok v) :
    ∀ x, a ≤ x → x < a + n → ∃ b, m.read x = some b := by
  induction n generalizing v with
  | zero => intro x h1 h2; omega
  | succ n ih =>
    obtain ⟨hi, b, h1, h2, -⟩ := memRead_succ_ok.1 h
    intro x hx hx'
    rcases Nat.lt_or_ge x (a + n) with hlt | hge
    · exact ih h1 x hx hlt
    · obtain rfl : x = a + n := by omega
      exact ⟨b, h2⟩

/-- The value of `MemRead(a, n)` is below 256^n. -/
theorem memRead_lt {m : Memory} {a n v : Nat} (h : memRead m a n = .ok v) : v < 256 ^ n := by
  induction n generalizing v with
  | zero => simp [memRead] at h; omega
  | succ n ih =>
    obtain ⟨hi, b, h1, -, rfl⟩ := memRead_succ_ok.1 h
    have h1 := ih h1
    have h2 := b.isLt
    rw [Nat.pow_succ]
    omega

/-- A read of k + n bytes is a read of k bytes and then of n bytes, high then low (R75). -/
theorem memRead_add (m : Memory) (a k n : Nat) :
    memRead m a (k + n) =
      match memRead m a k with
      | .error x => .error x
      | .ok hi =>
        match memRead m (a + k) n with
        | .error x => .error x
        | .ok lo => .ok (hi * 256 ^ n + lo) := by
  induction n with
  | zero => cases memRead m a k <;> simp [memRead]
  | succ n ih =>
    rw [← Nat.add_assoc, memRead, ih]
    cases memRead m a k with
    | error x => rfl
    | ok hi =>
      simp only [memRead]
      cases memRead m (a + k) n with
      | error x => rfl
      | ok lo =>
        simp only [← Nat.add_assoc]
        cases m.read (a + k + n) with
        | none => rfl
        | some b => simp only [Nat.pow_succ]; congr 1; ring

/-- `MemRead` depends on its own bytes only. -/
theorem memRead_congr {m m' : Memory} {a n : Nat} (h : ∀ x, a ≤ x → x < a + n → m.read x = m'.read x) :
    memRead m a n = memRead m' a n := by
  induction n with
  | zero => rfl
  | succ n ih =>
    simp only [memRead, ih (fun x h1 h2 => h x h1 (by omega)), h (a + n) (by omega) (by omega)]

theorem memRead_one {m : Memory} {a : Nat} {b0 : Byte} (h0 : m.read a = some b0) : memRead m a 1 = .ok b0.toNat := by
  simp [memRead, h0]

/-- `MemWrite` leaves every byte outside a .. a+n−1 alone. -/
theorem memWrite_read_outside (m : Memory) {a n v x : Nat} (h : x < a ∨ a + n ≤ x) :
    (memWrite m a n v).read x = m.read x := by
  induction n generalizing v with
  | zero => rfl
  | succ n ih =>
    rw [memWrite, Memory.read_write_ne _ _ (by omega), ih (by omega)]

/-- `MemWrite` puts byte n−1−i of the value at a+i (R14). -/
theorem memWrite_read_inside (m : Memory) {a n v i : Nat} (h : i < n) :
    (memWrite m a n v).read (a + i) = some (BitVec.ofNat 8 (v / 256 ^ (n - 1 - i))) := by
  induction n generalizing v with
  | zero => omega
  | succ n ih =>
    rw [memWrite]
    rcases Nat.lt_or_ge i n with hlt | hge
    · rw [Memory.read_write_ne _ _ (by omega), ih hlt, Nat.div_div_eq_div_mul, ← Nat.pow_succ']
      congr 4
      omega
    · obtain rfl : i = n := by omega
      simp

/-- `MemWrite` keeps the canonical form. -/
theorem memWrite_wf {m : Memory} (h : m.wf) (a n v : Nat) : (memWrite m a n v).wf := by
  induction n generalizing v with
  | zero => exact h
  | succ n ih => exact Memory.wf_write (ih _) _ _

/-- Reading back what `MemWrite` wrote gives the low n bytes of the value. -/
theorem memRead_memWrite_same (m : Memory) (a n v : Nat) : memRead (memWrite m a n v) a n = .ok (v % 256 ^ n) := by
  induction n generalizing v with
  | zero => simp [memRead, Nat.mod_one]
  | succ n ih =>
    rw [memRead_succ_ok]
    refine ⟨v / 256 % 256 ^ n, BitVec.ofNat 8 v, ?_, ?_, ?_⟩
    · rw [← ih (v / 256)]
      refine memRead_congr fun x h1 h2 => ?_
      rw [memWrite, Memory.read_write_ne _ _ (by omega)]
    · rw [memWrite, Memory.read_write_same]
    · rw [BitVec.toNat_ofNat, Nat.pow_succ', Nat.mod_mul]
      omega

/-- Reading outside a `MemWrite` gives what reading before it gave. -/
theorem memRead_memWrite_disjoint (m : Memory) {a n v x k : Nat} (h : x + k ≤ a ∨ a + n ≤ x) :
    memRead (memWrite m a n v) x k = memRead m x k :=
  memRead_congr fun y h1 h2 => memWrite_read_outside m (by omega)

end Sys2Proof.Machine
end

