-- ==== Sys2Proof/Laws/State.lean ====
section
/-! SUPPORT. Each field after each update of the state, so that no proof unfolds a record update. -/

namespace Sys2Proof.Machine

@[simp] theorem advancePos_cfg (s : State) (n : Nat) : (advancePos s n).cfg = s.cfg := rfl
@[simp] theorem advancePos_buf (s : State) (n : Nat) : (advancePos s n).buf = s.buf := rfl
@[simp] theorem advancePos_length (s : State) (n : Nat) : (advancePos s n).length = s.length := rfl
@[simp] theorem advancePos_pos (s : State) (n : Nat) : (advancePos s n).pos = BitVec.ofNat 32 (s.pos.toNat + n) := rfl
@[simp] theorem advancePos_key (s : State) (n : Nat) : (advancePos s n).key = s.key := rfl
@[simp] theorem advancePos_result (s : State) (n : Nat) : (advancePos s n).result = s.result := rfl
@[simp] theorem advancePos_resultValid (s : State) (n : Nat) : (advancePos s n).resultValid = s.resultValid := rfl
@[simp] theorem advancePos_status (s : State) (n : Nat) : (advancePos s n).status = s.status := rfl
@[simp] theorem advancePos_phase (s : State) (n : Nat) : (advancePos s n).phase = s.phase := rfl
@[simp] theorem advancePos_rspValid (s : State) (n : Nat) : (advancePos s n).rspValid = s.rspValid := rfl
@[simp] theorem advancePos_hbRdata (s : State) (n : Nat) : (advancePos s n).hbRdata = s.hbRdata := rfl
@[simp] theorem advancePos_hbRdataValid (s : State) (n : Nat) : (advancePos s n).hbRdataValid = s.hbRdataValid := rfl
@[simp] theorem advancePos_inputs (s : State) (n : Nat) : (advancePos s n).inputs = s.inputs := rfl
@[simp] theorem advancePos_log (s : State) (n : Nat) : (advancePos s n).log = s.log := rfl
@[simp] theorem advancePos_draws (s : State) (n : Nat) : (advancePos s n).draws = s.draws := rfl

@[simp] theorem writeResult_cfg (s : State) (r : DWord) : (writeResult s r).cfg = s.cfg := rfl
@[simp] theorem writeResult_buf (s : State) (r : DWord) : (writeResult s r).buf = s.buf := rfl
@[simp] theorem writeResult_length (s : State) (r : DWord) : (writeResult s r).length = s.length := rfl
@[simp] theorem writeResult_pos (s : State) (r : DWord) : (writeResult s r).pos = s.pos := rfl
@[simp] theorem writeResult_key (s : State) (r : DWord) : (writeResult s r).key = s.key := rfl
@[simp] theorem writeResult_result (s : State) (r : DWord) : (writeResult s r).result = r := rfl
@[simp] theorem writeResult_resultValid (s : State) (r : DWord) : (writeResult s r).resultValid = true := rfl
@[simp] theorem writeResult_status (s : State) (r : DWord) : (writeResult s r).status = s.status := rfl
@[simp] theorem writeResult_phase (s : State) (r : DWord) : (writeResult s r).phase = s.phase := rfl
@[simp] theorem writeResult_rspValid (s : State) (r : DWord) : (writeResult s r).rspValid = s.rspValid := rfl
@[simp] theorem writeResult_hbRdata (s : State) (r : DWord) : (writeResult s r).hbRdata = s.hbRdata := rfl
@[simp] theorem writeResult_hbRdataValid (s : State) (r : DWord) : (writeResult s r).hbRdataValid = s.hbRdataValid := rfl
@[simp] theorem writeResult_inputs (s : State) (r : DWord) : (writeResult s r).inputs = s.inputs := rfl
@[simp] theorem writeResult_log (s : State) (r : DWord) : (writeResult s r).log = s.log := rfl
@[simp] theorem writeResult_draws (s : State) (r : DWord) : (writeResult s r).draws = s.draws := rfl

@[simp] theorem respond_cfg (c : StatusCode) (s : State) : (respond c s).cfg = s.cfg := rfl
@[simp] theorem respond_buf (c : StatusCode) (s : State) : (respond c s).buf = s.buf := rfl
@[simp] theorem respond_length (c : StatusCode) (s : State) : (respond c s).length = s.length := rfl
@[simp] theorem respond_pos (c : StatusCode) (s : State) : (respond c s).pos = s.pos := rfl
@[simp] theorem respond_key (c : StatusCode) (s : State) : (respond c s).key = s.key := rfl
@[simp] theorem respond_result (c : StatusCode) (s : State) : (respond c s).result = s.result := rfl
@[simp] theorem respond_resultValid (c : StatusCode) (s : State) : (respond c s).resultValid = s.resultValid := rfl
@[simp] theorem respond_status (c : StatusCode) (s : State) : (respond c s).status = statusOf c := rfl
@[simp] theorem respond_phase (c : StatusCode) (s : State) : (respond c s).phase = .idle := rfl
@[simp] theorem respond_rspValid (c : StatusCode) (s : State) : (respond c s).rspValid = true := rfl
@[simp] theorem respond_hbRdata (c : StatusCode) (s : State) : (respond c s).hbRdata = s.hbRdata := rfl
@[simp] theorem respond_hbRdataValid (c : StatusCode) (s : State) : (respond c s).hbRdataValid = s.hbRdataValid := rfl
@[simp] theorem respond_inputs (c : StatusCode) (s : State) : (respond c s).inputs = s.inputs := rfl
@[simp] theorem respond_log (c : StatusCode) (s : State) : (respond c s).log = s.log := rfl
@[simp] theorem respond_draws (c : StatusCode) (s : State) : (respond c s).draws = s.draws := rfl

@[simp] theorem complete_cfg (s : State) : (complete s).cfg = s.cfg := rfl
@[simp] theorem complete_buf (s : State) : (complete s).buf = s.buf := rfl
@[simp] theorem complete_length (s : State) : (complete s).length = s.length := rfl
@[simp] theorem complete_pos (s : State) : (complete s).pos = s.pos := rfl
@[simp] theorem complete_key (s : State) : (complete s).key = s.key := rfl
@[simp] theorem complete_result (s : State) : (complete s).result = s.result := rfl
@[simp] theorem complete_resultValid (s : State) : (complete s).resultValid = s.resultValid := rfl
@[simp] theorem complete_status (s : State) : (complete s).status = statusOf .ok := rfl
@[simp] theorem complete_phase (s : State) : (complete s).phase = .idle := rfl
@[simp] theorem complete_rspValid (s : State) : (complete s).rspValid = true := rfl
@[simp] theorem complete_hbRdata (s : State) : (complete s).hbRdata = s.hbRdata := rfl
@[simp] theorem complete_hbRdataValid (s : State) : (complete s).hbRdataValid = s.hbRdataValid := rfl
@[simp] theorem complete_inputs (s : State) : (complete s).inputs = s.inputs := rfl
@[simp] theorem complete_log (s : State) : (complete s).log = s.log := rfl
@[simp] theorem complete_draws (s : State) : (complete s).draws = s.draws := rfl

@[simp] theorem tick_cfg (s : State) : (tick s).cfg = s.cfg := rfl
@[simp] theorem tick_buf (s : State) : (tick s).buf = s.buf := rfl
@[simp] theorem tick_length (s : State) : (tick s).length = s.length := rfl
@[simp] theorem tick_pos (s : State) : (tick s).pos = s.pos := rfl
@[simp] theorem tick_key (s : State) : (tick s).key = s.key := rfl
@[simp] theorem tick_result (s : State) : (tick s).result = s.result := rfl
@[simp] theorem tick_resultValid (s : State) : (tick s).resultValid = s.resultValid := rfl
@[simp] theorem tick_status (s : State) : (tick s).status = s.status := rfl
@[simp] theorem tick_phase (s : State) : (tick s).phase = s.phase := rfl
@[simp] theorem tick_rspValid (s : State) : (tick s).rspValid = false := rfl
@[simp] theorem tick_hbRdata (s : State) : (tick s).hbRdata = s.hbRdata := rfl
@[simp] theorem tick_hbRdataValid (s : State) : (tick s).hbRdataValid = false := rfl
@[simp] theorem tick_inputs (s : State) : (tick s).inputs = s.inputs.tail := rfl
@[simp] theorem tick_log (s : State) : (tick s).log = s.log := rfl
@[simp] theorem tick_draws (s : State) : (tick s).draws = s.draws + 1 := rfl

@[simp] theorem accept_cfg (s : State) : (accept s).cfg = s.cfg := rfl
@[simp] theorem accept_buf (s : State) : (accept s).buf = s.buf := rfl
@[simp] theorem accept_length (s : State) : (accept s).length = s.length := rfl
@[simp] theorem accept_pos (s : State) : (accept s).pos = s.pos := rfl
@[simp] theorem accept_key (s : State) : (accept s).key = s.key := rfl
@[simp] theorem accept_result (s : State) : (accept s).result = s.result := rfl
@[simp] theorem accept_resultValid (s : State) : (accept s).resultValid = s.resultValid := rfl
@[simp] theorem accept_status (s : State) : (accept s).status = s.status := rfl
@[simp] theorem accept_phase (s : State) : (accept s).phase = .busy := rfl
@[simp] theorem accept_rspValid (s : State) : (accept s).rspValid = false := rfl
@[simp] theorem accept_hbRdata (s : State) : (accept s).hbRdata = s.hbRdata := rfl
@[simp] theorem accept_hbRdataValid (s : State) : (accept s).hbRdataValid = false := rfl
@[simp] theorem accept_inputs (s : State) : (accept s).inputs = s.inputs.tail := rfl
@[simp] theorem accept_log (s : State) : (accept s).log = s.log := rfl
@[simp] theorem accept_draws (s : State) : (accept s).draws = s.draws + 1 := rfl

@[simp] theorem drive_cfg (xs : List Inputs) (s : State) : (State.drive xs s).cfg = s.cfg := rfl
@[simp] theorem drive_buf (xs : List Inputs) (s : State) : (State.drive xs s).buf = s.buf := rfl
@[simp] theorem drive_length (xs : List Inputs) (s : State) : (State.drive xs s).length = s.length := rfl
@[simp] theorem drive_pos (xs : List Inputs) (s : State) : (State.drive xs s).pos = s.pos := rfl
@[simp] theorem drive_key (xs : List Inputs) (s : State) : (State.drive xs s).key = s.key := rfl
@[simp] theorem drive_result (xs : List Inputs) (s : State) : (State.drive xs s).result = s.result := rfl
@[simp] theorem drive_resultValid (xs : List Inputs) (s : State) : (State.drive xs s).resultValid = s.resultValid := rfl
@[simp] theorem drive_status (xs : List Inputs) (s : State) : (State.drive xs s).status = s.status := rfl
@[simp] theorem drive_phase (xs : List Inputs) (s : State) : (State.drive xs s).phase = s.phase := rfl
@[simp] theorem drive_rspValid (xs : List Inputs) (s : State) : (State.drive xs s).rspValid = s.rspValid := rfl
@[simp] theorem drive_hbRdata (xs : List Inputs) (s : State) : (State.drive xs s).hbRdata = s.hbRdata := rfl
@[simp] theorem drive_hbRdataValid (xs : List Inputs) (s : State) : (State.drive xs s).hbRdataValid = s.hbRdataValid := rfl
@[simp] theorem drive_inputs (xs : List Inputs) (s : State) : (State.drive xs s).inputs = xs ++ s.inputs := rfl
@[simp] theorem drive_log (xs : List Inputs) (s : State) : (State.drive xs s).log = s.log := rfl
@[simp] theorem drive_draws (xs : List Inputs) (s : State) : (State.drive xs s).draws = s.draws := rfl

@[simp] theorem applyReset_cfg (s : State) : (applyReset s).cfg = s.cfg := rfl
@[simp] theorem applyReset_buf (s : State) : (applyReset s).buf = [] := rfl
@[simp] theorem applyReset_length (s : State) : (applyReset s).length = 0 := rfl
@[simp] theorem applyReset_pos (s : State) : (applyReset s).pos = 0 := rfl
@[simp] theorem applyReset_key (s : State) : (applyReset s).key = Key.zero := rfl
@[simp] theorem applyReset_result (s : State) : (applyReset s).result = 0 := rfl
@[simp] theorem applyReset_resultValid (s : State) : (applyReset s).resultValid = false := rfl
@[simp] theorem applyReset_status (s : State) : (applyReset s).status = statusOf .none := rfl
@[simp] theorem applyReset_phase (s : State) : (applyReset s).phase = .idle := rfl
@[simp] theorem applyReset_rspValid (s : State) : (applyReset s).rspValid = false := rfl
@[simp] theorem applyReset_hbRdata (s : State) : (applyReset s).hbRdata = 0 := rfl
@[simp] theorem applyReset_hbRdataValid (s : State) : (applyReset s).hbRdataValid = false := rfl
@[simp] theorem applyReset_inputs (s : State) : (applyReset s).inputs = s.inputs.tail := rfl
@[simp] theorem applyReset_log (s : State) : (applyReset s).log = s.log := rfl
@[simp] theorem applyReset_draws (s : State) : (applyReset s).draws = s.draws + 1 := rfl

theorem statusOf_toNat_lt (c : StatusCode) : (statusOf c).toNat < 16 := by cases c <;> decide

@[simp] theorem codeField_statusOf (c : StatusCode) : codeField (statusOf c) = c.bits := by cases c <;> decide

@[simp] theorem reservedField_statusOf (c : StatusCode) : reservedField (statusOf c) = 0 := by cases c <;> decide

theorem legalCode_bits (c : StatusCode) : legalCode c.bits := by cases c <;> decide

/-- The four key indices. -/
theorem keyIndex_cases : ∀ i : BitVec 2, i = 0 ∨ i = 1 ∨ i = 2 ∨ i = 3 := by decide

@[simp] theorem Key.get_set_same (k : Key) (i : BitVec 2) (w : Word) : (k.set i w).get i = w := by
  rcases keyIndex_cases i with rfl | rfl | rfl | rfl <;> rfl

theorem Key.get_set_ne (k : Key) {i j : BitVec 2} (w : Word) (h : j ≠ i) : (k.set i w).get j = k.get j := by
  rcases keyIndex_cases i with rfl | rfl | rfl | rfl <;> rcases keyIndex_cases j with rfl | rfl | rfl | rfl <;>
    first | rfl | exact absurd rfl h

@[simp] theorem Key.get_zero (i : BitVec 2) : Key.zero.get i = 0 := by
  simp only [Key.get, Key.zero]; split <;> rfl

end Sys2Proof.Machine
end

