-- ==== Sys2Proof/Laws/Ops.lean ====
section
/-! SUPPORT. For each shared operation, once, everything it can do. -/

namespace Sys2Proof.Machine

/-- What an accepted command changes besides its own registers: the response (R41, R235). -/
theorem complete_eq (s : State) : complete s = { s with status := 0#8, phase := .idle, rspValid := true } := rfl

theorem raiseBounds_eq (i : Instr) (s : State) :
    raiseBounds i s = .next { s with
      status := 1#8, phase := .idle, rspValid := true, log := .errorResponse i .eBounds :: s.log } := rfl

theorem raiseArg_eq (i : Instr) (s : State) :
    raiseArg i s = .next { s with
      status := 3#8, phase := .idle, rspValid := true, log := .errorResponse i .eArg :: s.log } := rfl

theorem raiseIllegal_eq (op : Byte) (s : State) :
    raiseIllegal op s = .next { s with
      status := 2#8, phase := .idle, rspValid := true, log := .illegalWord op :: s.log } := rfl

/-- UNINIT stops the run with the log and one entry more (R236, R243). -/
theorem stopUninit_eq (i : Instr) (a : Nat) (s : State) :
    stopUninit i a s = .fault (.uninit i a (.uninit i a :: s.log)) := rfl

/-- Out of bounds, the read at the cursor raises E_BOUNDS (R140, R231). -/
theorem readAtPos_out {i : Instr} {n : Nat} {p : Nat → DWord} {s : State} (h : ¬ inBounds s s.pos.toNat n) :
    readAtPos i n p s = raiseBounds i s := by
  simp [readAtPos, h]

/-- In bounds and reading a value, it completes with that value's pattern. -/
theorem readAtPos_ok {i : Instr} {n v : Nat} {p : Nat → DWord} {s : State} (h : inBounds s s.pos.toNat n)
    (hv : memRead s.buf s.pos.toNat n = .ok v) :
    readAtPos i n p s = .next (complete (advancePos (writeResult s (p v)) n)) := by
  simp only [readAtPos, if_pos h, hv]

/-- In bounds and reaching a byte without a value, it is UNINIT there (R236). -/
theorem readAtPos_uninit {i : Instr} {n a : Nat} {p : Nat → DWord} {s : State} (h : inBounds s s.pos.toNat n)
    (ha : memRead s.buf s.pos.toNat n = .error a) : readAtPos i n p s = stopUninit i a s := by
  simp only [readAtPos, if_pos h, ha]

/-- Everything the read at the cursor can do. -/
theorem readAtPos_cases (i : Instr) (n : Nat) (p : Nat → DWord) (s : State) :
    (¬ inBounds s s.pos.toNat n ∧ readAtPos i n p s = raiseBounds i s) ∨
    (∃ v, inBounds s s.pos.toNat n ∧ memRead s.buf s.pos.toNat n = .ok v ∧
      readAtPos i n p s = .next (complete (advancePos (writeResult s (p v)) n))) ∨
    (∃ a, inBounds s s.pos.toNat n ∧ memRead s.buf s.pos.toNat n = .error a ∧
      readAtPos i n p s = stopUninit i a s) := by
  by_cases h : inBounds s s.pos.toNat n
  · cases hm : memRead s.buf s.pos.toNat n with
    | ok v => exact .inr (.inl ⟨v, h, rfl, readAtPos_ok h hm⟩)
    | error a => exact .inr (.inr ⟨a, h, rfl, readAtPos_uninit h hm⟩)
  · exact .inl ⟨h, readAtPos_out h⟩

/-- With no byte available, a smart command raises E_BOUNDS (R171). -/
theorem readSmart_out {i : Instr} {f g : Nat × (Nat → DWord)} {s : State} (h : ¬ inBounds s s.pos.toNat 1) :
    readSmart i f g s = raiseBounds i s := by
  simp [readSmart, h]

/-- After the peek, a smart command is the read of the form the top bit selects (R171). -/
theorem readSmart_peek {i : Instr} {f g : Nat × (Nat → DWord)} {s : State} {b0 : Byte}
    (h : inBounds s s.pos.toNat 1) (hb : s.buf.read s.pos.toNat = some b0) :
    readSmart i f g s = if b0.msb then readAtPos i g.1 g.2 s else readAtPos i f.1 f.2 s := by
  have ht : topBit b0.toNat = b0.msb := by
    rw [topBit, BitVec.msb_eq_getLsbD_last, BitVec.getLsbD]
  simp only [readSmart, if_pos h, memRead_one hb, ht]

/-- Everything a smart command can do: E_BOUNDS or UNINIT at the peek, or the read of one of its forms. -/
theorem readSmart_cases (i : Instr) (f g : Nat × (Nat → DWord)) (s : State) :
    (¬ inBounds s s.pos.toNat 1 ∧ readSmart i f g s = raiseBounds i s) ∨
    (inBounds s s.pos.toNat 1 ∧ s.buf.read s.pos.toNat = none ∧
      readSmart i f g s = stopUninit i s.pos.toNat s) ∨
    (∃ b0, inBounds s s.pos.toNat 1 ∧ s.buf.read s.pos.toNat = some b0 ∧
      readSmart i f g s = if b0.msb then readAtPos i g.1 g.2 s else readAtPos i f.1 f.2 s) := by
  by_cases h : inBounds s s.pos.toNat 1
  · cases hb : s.buf.read s.pos.toNat with
    | none => exact .inr (.inl ⟨h, rfl, by simp [readSmart, h, memRead, hb]⟩)
    | some b0 => exact .inr (.inr ⟨b0, h, rfl, readSmart_peek h hb⟩)
  · exact .inl ⟨h, readSmart_out h⟩

/-- What `decryptBlocks` needs: where it stops, a block byte holds no value (R193, R236). -/
theorem decryptBlocks_error {K : Key} {n a x : Nat} {m : Memory} (h : decryptBlocks K n a m = .error x) :
    a ≤ x ∧ x < a + 8 * n ∧ m.read x = none := by
  induction n generalizing a m with
  | zero => simp [decryptBlocks] at h
  | succ n ih =>
    simp only [decryptBlocks] at h
    cases hy : memRead m a 4 with
    | error e =>
      simp only [hy, Except.error.injEq] at h
      subst h
      obtain ⟨h1, h2, h3⟩ := memRead_error hy
      exact ⟨h2, by omega, h1⟩
    | ok y =>
      cases hz : memRead m (a + 4) 4 with
      | error e =>
        simp only [hy, hz, Except.error.injEq] at h
        subst h
        obtain ⟨h1, h2, h3⟩ := memRead_error hz
        exact ⟨by omega, by omega, h1⟩
      | ok z =>
        simp only [hy, hz] at h
        obtain ⟨h1, h2, h3⟩ := ih h
        refine ⟨by omega, by omega, ?_⟩
        rwa [memWrite_read_outside _ (by omega), memWrite_read_outside _ (by omega)] at h3

/-- The block loop writes inside its blocks only (R194). -/
theorem decryptBlocks_outside {K : Key} {n a x : Nat} {m m' : Memory} (h : decryptBlocks K n a m = .ok m')
    (hx : x < a ∨ a + 8 * n ≤ x) : m'.read x = m.read x := by
  induction n generalizing a m with
  | zero => simp only [decryptBlocks, Except.ok.injEq] at h; rw [h]
  | succ n ih =>
    simp only [decryptBlocks] at h
    cases hy : memRead m a 4 with
    | error e => simp [hy] at h
    | ok y =>
      cases hz : memRead m (a + 4) 4 with
      | error e => simp [hy, hz] at h
      | ok z =>
        simp only [hy, hz] at h
        rw [ih h (by omega), memWrite_read_outside _ (by omega), memWrite_read_outside _ (by omega)]

/-- The block loop keeps the canonical form. -/
theorem decryptBlocks_wf {K : Key} {n a : Nat} {m m' : Memory} (hm : m.wf) (h : decryptBlocks K n a m = .ok m') :
    m'.wf := by
  induction n generalizing a m with
  | zero => simp only [decryptBlocks, Except.ok.injEq] at h; rwa [← h]
  | succ n ih =>
    simp only [decryptBlocks] at h
    cases hy : memRead m a 4 with
    | error e => simp [hy] at h
    | ok y =>
      cases hz : memRead m (a + 4) 4 with
      | error e => simp [hy, hz] at h
      | ok z => simp only [hy, hz] at h; exact ih (memWrite_wf (memWrite_wf hm _ _ _) _ _ _) h

/-- The blocks lie below LENGTH (R193: "every address it touches is below LENGTH by construction"). -/
theorem nblocks_le (len : Nat) (h : 0 < nblocks len) : 5 + 8 * nblocks len ≤ len := by
  unfold nblocks at h ⊢
  split <;> simp_all
  omega

/-- Everything DECRYPT can do (R193). -/
theorem execDecrypt_cases (s : State) :
    (∃ m, decryptBlocks s.key (nblocks s.length.toNat) 5 s.buf = .ok m ∧
      execDecrypt s = .next (complete { s with buf := m })) ∨
    (∃ a, decryptBlocks s.key (nblocks s.length.toNat) 5 s.buf = .error a ∧
      execDecrypt s = stopUninit .decrypt a s) := by
  unfold execDecrypt
  cases decryptBlocks s.key (nblocks s.length.toNat) 5 s.buf with
  | ok m => exact .inl ⟨m, rfl, rfl⟩
  | error a => exact .inr ⟨a, rfl, rfl⟩

/-- RD8U is the read of eight bytes at the cursor (R75: "the same as one 8-byte big-endian read"). -/
theorem execRd8u_eq (s : State) : execRd8u s = readAtPos .rd8u 8 zext64 s := by
  unfold execRd8u readAtPos
  rw [show (8 : Nat) = 4 + 4 from rfl, memRead_add]
  split
  · cases memRead s.buf s.pos.toNat 4 with
    | error x => rfl
    | ok hi => cases memRead s.buf (s.pos.toNat + 4) 4 <;> rfl
  · rfl

end Sys2Proof.Machine
end

