-- ==== Sys2Proof/Laws/PerInstr.lean ====
section
/-! SUPPORT. Per-instruction families: for every command, its command word shows the fields that the opcode map of
`spec/30_encoding.md` rule R107 gives it, read with the formats of rules R101 to R105. -/

namespace Sys2Proof

/-- The fields of a command word, by format (R102 to R105). -/
inductive Laws.FormatFields where
  | r (s b : Bool) (w : Nat)
  | v (l x : Bool)
  | m (f : Bool)
  | c (k : Bool) (n : Nat)
deriving DecidableEq, Repr

/-- The fields a word shows under the format its group names (R101). -/
def Laws.fieldsShown (op : Byte) : Laws.FormatFields :=
  match (op.extractLsb' 6 2).toNat with
  | 0 => .r (op.getLsbD 5) (op.getLsbD 4) (op.extractLsb' 0 3).toNat
  | 1 => .v (op.getLsbD 1) (op.getLsbD 0)
  | 2 => .m (op.getLsbD 0)
  | _ => .c (op.getLsbD 2) (op.extractLsb' 0 2).toNat

/-- The "fields" column of the opcode map (R107). -/
def Laws.fieldsOfTable : Instr → Laws.FormatFields
  | .rd1u => .r false false 0
  | .rd1s => .r true false 0
  | .rd2u => .r false false 1
  | .rd2s => .r true false 1
  | .rd3u => .r false false 2
  | .rd4u => .r false false 3
  | .rd4s => .r true false 3
  | .rd8u => .r false false 7
  | .rdbool => .r false true 0
  | .smartu => .v false false
  | .smarts => .v false true
  | .smart4m => .v true false
  | .smart4u => .v true true
  | .wr4 _ => .m false
  | .decrypt => .m true
  | .setpos _ => .c false 0
  | .setlen _ => .c false 1
  | .clrkey => .c false 2
  | .setkey ki _ => .c true ki.toNat

/-- The command word of `i` shows the fields of its row. -/
def Laws.WordFields.Statement (i : Instr) : Prop := Laws.fieldsShown (encodeOp i) = Laws.fieldsOfTable i

theorem Laws.WordFields.rd1u : Laws.WordFields.Statement .rd1u := by unfold Laws.WordFields.Statement; decide
theorem Laws.WordFields.rd1s : Laws.WordFields.Statement .rd1s := by unfold Laws.WordFields.Statement; decide
theorem Laws.WordFields.rd2u : Laws.WordFields.Statement .rd2u := by unfold Laws.WordFields.Statement; decide
theorem Laws.WordFields.rd2s : Laws.WordFields.Statement .rd2s := by unfold Laws.WordFields.Statement; decide
theorem Laws.WordFields.rd3u : Laws.WordFields.Statement .rd3u := by unfold Laws.WordFields.Statement; decide
theorem Laws.WordFields.rd4u : Laws.WordFields.Statement .rd4u := by unfold Laws.WordFields.Statement; decide
theorem Laws.WordFields.rd4s : Laws.WordFields.Statement .rd4s := by unfold Laws.WordFields.Statement; decide
theorem Laws.WordFields.rd8u : Laws.WordFields.Statement .rd8u := by unfold Laws.WordFields.Statement; decide
theorem Laws.WordFields.rdbool : Laws.WordFields.Statement .rdbool := by unfold Laws.WordFields.Statement; decide
theorem Laws.WordFields.smartu : Laws.WordFields.Statement .smartu := by unfold Laws.WordFields.Statement; decide
theorem Laws.WordFields.smarts : Laws.WordFields.Statement .smarts := by unfold Laws.WordFields.Statement; decide
theorem Laws.WordFields.smart4m : Laws.WordFields.Statement .smart4m := by unfold Laws.WordFields.Statement; decide
theorem Laws.WordFields.smart4u : Laws.WordFields.Statement .smart4u := by unfold Laws.WordFields.Statement; decide
theorem Laws.WordFields.wr4 (w : Word) : Laws.WordFields.Statement (.wr4 w) := by
  show Laws.fieldsShown 0x80 = .m false; decide
theorem Laws.WordFields.decrypt : Laws.WordFields.Statement .decrypt := by unfold Laws.WordFields.Statement; decide
theorem Laws.WordFields.setpos (p : Word) : Laws.WordFields.Statement (.setpos p) := by
  show Laws.fieldsShown 0xC0 = .c false 0; decide
theorem Laws.WordFields.setlen (n : Word) : Laws.WordFields.Statement (.setlen n) := by
  show Laws.fieldsShown 0xC1 = .c false 1; decide
theorem Laws.WordFields.clrkey : Laws.WordFields.Statement .clrkey := by unfold Laws.WordFields.Statement; decide
theorem Laws.WordFields.setkey (ki : BitVec 2) (w : Word) : Laws.WordFields.Statement (.setkey ki w) := by
  show Laws.fieldsShown (0b110001#6 ++ ki) = .c true ki.toNat
  revert ki
  decide

end Sys2Proof
end

