-- ==== Sys2Proof/Machine/ScriptText.lean ====
section
/-! DEFINITION. The text of a command script, line by line (`spec/30_encoding.md` rule R111): a mnemonic, then operands
separated by commas, each decimal or `0x` hexadecimal and possibly negative, `;` starting a comment. -/

namespace Sys2Proof.Machine

/-- A line without its comment. -/
def stripComment : List Char → List Char
  | [] => []
  | c :: cs => if c = ';' then [] else c :: stripComment cs

/-- The characters gathered so far (newest first) as a token, if there are any. -/
def flushToken (cur : List Char) : List (List Char) := if cur.isEmpty then [] else [cur.reverse]

/-- The words of a line; a comma is a token of its own. -/
def tokenize : List Char → List Char → List (List Char)
  | [], cur => flushToken cur
  | c :: cs, cur =>
    if c = ' ' ∨ c = '\t' then flushToken cur ++ tokenize cs []
    else if c = ',' then flushToken cur ++ [','] :: tokenize cs []
    else tokenize cs (c :: cur)

/-- The value of a digit in a base up to 16. -/
def digitValue (base : Nat) (c : Char) : Option Nat :=
  let n := c.toNat
  let v := if 48 ≤ n ∧ n ≤ 57 then n - 48 else if 65 ≤ n ∧ n ≤ 70 then n - 55 else if 97 ≤ n ∧ n ≤ 102 then n - 87 else 99
  if v < base then some v else none

/-- A non-empty digit string in a base. -/
def parseDigits (base : Nat) : Nat → List Char → Option Nat
  | acc, [] => some acc
  | acc, c :: cs =>
    match digitValue base c with
    | none => none
    | some d => parseDigits base (acc * base + d) cs

/-- A number: decimal or `0x` hexadecimal. -/
def parseNumber : List Char → Option Nat
  | [] => none
  | '0' :: 'x' :: c :: cs => parseDigits 16 0 (c :: cs)
  | c :: cs => parseDigits 10 0 (c :: cs)

/-- A number that may be written negative. -/
def parseInteger : List Char → Option Int
  | '-' :: cs => (parseNumber cs).map (fun n => -(n : Int))
  | cs => (parseNumber cs).map (fun n => (n : Int))

/-- Operands separated by commas. -/
def parseOperands : List (List Char) → Option (List Int)
  | [] => some []
  | [t] => (parseInteger t).map (fun v => [v])
  | t :: c :: u :: rest =>
    if c = [','] then
      match parseInteger t, parseOperands (u :: rest) with
      | some v, some vs => some (v :: vs)
      | _, _ => none
    else none
  | _ => none

/-- The mnemonics of the commands that take no operand (R107). -/
def plainMnemonic (w : List Char) : Option Instr :=
  if w = ['R', 'D', '1', 'U'] then some .rd1u
  else if w = ['R', 'D', '1', 'S'] then some .rd1s
  else if w = ['R', 'D', '2', 'U'] then some .rd2u
  else if w = ['R', 'D', '2', 'S'] then some .rd2s
  else if w = ['R', 'D', '3', 'U'] then some .rd3u
  else if w = ['R', 'D', '4', 'U'] then some .rd4u
  else if w = ['R', 'D', '4', 'S'] then some .rd4s
  else if w = ['R', 'D', '8', 'U'] then some .rd8u
  else if w = ['R', 'D', 'B', 'O', 'O', 'L'] then some .rdbool
  else if w = ['S', 'M', 'A', 'R', 'T', 'U'] then some .smartu
  else if w = ['S', 'M', 'A', 'R', 'T', 'S'] then some .smarts
  else if w = ['S', 'M', 'A', 'R', 'T', '4', 'M'] then some .smart4m
  else if w = ['S', 'M', 'A', 'R', 'T', '4', 'U'] then some .smart4u
  else if w = ['D', 'E', 'C', 'R', 'Y', 'P', 'T'] then some .decrypt
  else if w = ['C', 'L', 'R', 'K', 'E', 'Y'] then some .clrkey
  else none

/-- A number that must not be negative, as a natural number. -/
def unsignedNumber (v : Int) : Option Nat := if 0 ≤ v then some v.toNat else none

/-- The line of a mnemonic that takes operands (R111), or of a pseudo-instruction (R112). -/
def operandLine (w : List Char) (ops : List Int) : Option ScriptLine :=
  if w = ['L', 'O', 'A', 'D'] then (ops.mapM unsignedNumber).map .load
  else
    match ops with
    | [] => if w = ['R', 'E', 'W', 'I', 'N', 'D'] then some .rewind else none
    | [v] =>
      if w = ['W', 'R', '4'] then some (.wr4 v)
      else if w = ['S', 'E', 'T', 'P', 'O', 'S'] then some (.setpos v)
      else if w = ['S', 'E', 'T', 'L', 'E', 'N'] then some (.setlen v)
      else if w = ['H', 'B', 'R'] then (unsignedNumber v).map .hbr
      else if w = ['S', 'K', 'I', 'P'] then (unsignedNumber v).map (fun n => .skip n none)
      else none
    | [k, v] =>
      if w = ['S', 'E', 'T', 'K', 'E', 'Y'] then (unsignedNumber k).map (fun n => .setkey n v)
      else if w = ['H', 'B', 'W'] then
        match unsignedNumber k, unsignedNumber v with
        | some a, some b => some (.hbw a b)
        | _, _ => none
      else none
    | [k0, k1, k2, k3] => if w = ['K', 'E', 'Y'] then some (.key k0 k1 k2 k3) else none
    | _ => none

/-- The samples a line of text stands for: none for an empty or comment line, `none` for a line that is rejected. -/
def assembleText (line : List Char) : Option (List Inputs) :=
  match tokenize (stripComment line) [] with
  | [] => some []
  | w :: rest =>
    match parseOperands rest with
    | none => none
    | some ops =>
      match plainMnemonic w, ops with
      | some i, [] => assembleLine (.plain i)
      | some _, _ => none
      | none, _ =>
        match operandLine w ops with
        | some l => assembleLine l
        | none => none

end Sys2Proof.Machine
end

