-- ==== Sys2Proof/Tests/Slice0.lean ====
section
/-! SUPPORT. Tests of the model and witnesses of the statements' hypotheses. The expected values are those of
`spec/95_test_vectors.md` (the vector's number stands in the comment) or of the rule cited. -/

namespace Sys2Proof.Tests

open Sys2Proof.Machine

/-! ## Helpers -/

/-- The bytes `bs` from address `a` on. -/
def cells : Nat → List Byte → Memory
  | _, [] => []
  | a, b :: bs => (a, b) :: cells (a + 1) bs

/-- A machine with BUF_CAP = 64 whose buffer proper is `bs`, with the cursor at `p`. -/
def loaded (bs : List Byte) (p : Word) : State :=
  { State.reset with buf := cells 0 bs, length := BitVec.ofNat 32 bs.length, pos := p }

/-- `loaded` after `xs` has been put before what the host drives. -/
def offered (xs : List Inputs) (bs : List Byte) (p : Word) : State := State.drive xs (loaded bs p)

/-- A machine with LENGTH = 8 that has no byte written but those at 0 and 1. -/
def holed : State := { loaded [0x81, 0x00] 0 with length := 8 }

def nextOf : Result → Option State
  | .next t => some t
  | .fault _ => none
  | .refused _ => none

def faultOf : Result → Option Fault
  | .next _ => none
  | .fault f => some f
  | .refused _ => none

def refusalOf : Result → Option Refusal
  | .next _ => none
  | .fault _ => none
  | .refused r => some r

/-- RESULT, POS and STATUS of a next state. -/
def shown (r : Result) : Option (DWord × Word × BitVec 8) := (nextOf r).map fun t => (t.result, t.pos, t.status)

/-- BUF, POS and STATUS of a next state. -/
def stored (r : Result) : Option (Memory × Word × BitVec 8) := (nextOf r).map fun t => (t.buf, t.pos, t.status)

/-- The thirteen read commands (R38). -/
def readCommands : List Instr :=
  [.rd1u, .rd1s, .rd2u, .rd2s, .rd3u, .rd4u, .rd4s, .rd8u, .rdbool, .smartu, .smarts, .smart4m, .smart4u]

/-- A 13-byte container with the ciphertext block of vector T1, and its key. -/
def container : List Byte := [0x01, 0x00, 0x00, 0x00, 0x08, 0x49, 0x7D, 0xF3, 0xD0, 0x72, 0x61, 0x2C, 0xB5]
def containerKey : Key := { k0 := 0x00010203, k1 := 0x04050607, k2 := 0x08090A0B, k3 := 0x0C0D0E0F }
def sealed : State := { loaded container 1 with key := containerKey, result := 1, resultValid := true }

/-! ## Well-formedness: an ill-formed term for each check -/

theorem test_formatR_refuses_bit3 : Command.wellFormed ⟨0x08, 0⟩ = false := by decide -- I4
theorem test_formatR_refuses_width5 : Command.wellFormed ⟨0x04, 0⟩ = false := by decide -- I1
theorem test_formatR_refuses_width6 : Command.wellFormed ⟨0x05, 0⟩ = false := by decide -- I2
theorem test_formatR_refuses_width7 : Command.wellFormed ⟨0x06, 0⟩ = false := by decide -- I3
theorem test_formatR_refuses_boolean_with_width : Command.wellFormed ⟨0x11, 0⟩ = false := by decide -- I5
theorem test_formatR_refuses_signed_boolean : Command.wellFormed ⟨0x30, 0⟩ = false := by decide -- I8
theorem test_formatR_refuses_signed_width3 : Command.wellFormed ⟨0x22, 0⟩ = false := by decide -- I6
theorem test_formatR_refuses_signed_width8 : Command.wellFormed ⟨0x27, 0⟩ = false := by decide -- I7
theorem test_formatV_refuses_reserved_bits : Command.wellFormed ⟨0x44, 0⟩ = false := by decide -- I9
theorem test_formatM_refuses_reserved_bits : Command.wellFormed ⟨0x82, 0⟩ = false := by decide -- I11
theorem test_formatC_refuses_c3 : Command.wellFormed ⟨0xC3, 0⟩ = false := by decide -- I13
theorem test_formatC_refuses_reserved_bits : Command.wellFormed ⟨0xC8, 0⟩ = false := by decide -- I14

theorem test_line_refuses_plain_with_operand : (ScriptLine.plain (.wr4 0)).wellFormed = false := by decide -- R111
theorem test_line_refuses_negative_setpos : (ScriptLine.setpos (-1)).wellFormed = false := by decide -- R111
theorem test_line_refuses_wide_setlen : (ScriptLine.setlen (2 ^ 32)).wellFormed = false := by decide -- R111
theorem test_line_refuses_key_index4 : (ScriptLine.setkey 4 0).wellFormed = false := by decide -- R105
theorem test_line_refuses_hbw_address : (ScriptLine.hbw (2 ^ 32) 0).wellFormed = false := by decide -- R44
theorem test_line_refuses_hbw_byte : (ScriptLine.hbw 0 256).wellFormed = false := by decide -- R221
theorem test_line_refuses_hbr_address : (ScriptLine.hbr (2 ^ 32)).wellFormed = false := by decide -- R44
theorem test_line_refuses_load_byte : (ScriptLine.load [255, 256]).wellFormed = false := by decide -- R221
theorem test_line_refuses_skip_without_pos : (ScriptLine.skip 1 none).wellFormed = false := by decide -- R112
theorem test_line_refuses_skip_past_32_bits : (ScriptLine.skip 1 (some (2 ^ 32 - 1))).wellFormed = false := by decide
theorem test_line_takes_negative_wr4 : (ScriptLine.wr4 (-1)).wellFormed = true := by decide -- R111

/-! ## Decoding: each word written out field by field from R102 to R105, and read as R107 says -/

/-- Format R: group 00, S, B, bit 3, W. -/
theorem test_decode_format_r :
    decode ⟨0b00#2 ++ 0b0#1 ++ 0b0#1 ++ 0b0#1 ++ 0b000#3, 0⟩ = .legal .rd1u ∧
    decode ⟨0b00#2 ++ 0b1#1 ++ 0b0#1 ++ 0b0#1 ++ 0b000#3, 0⟩ = .legal .rd1s ∧
    decode ⟨0b00#2 ++ 0b0#1 ++ 0b0#1 ++ 0b0#1 ++ 0b001#3, 0⟩ = .legal .rd2u ∧
    decode ⟨0b00#2 ++ 0b1#1 ++ 0b0#1 ++ 0b0#1 ++ 0b001#3, 0⟩ = .legal .rd2s ∧
    decode ⟨0b00#2 ++ 0b0#1 ++ 0b0#1 ++ 0b0#1 ++ 0b010#3, 0⟩ = .legal .rd3u ∧
    decode ⟨0b00#2 ++ 0b0#1 ++ 0b0#1 ++ 0b0#1 ++ 0b011#3, 0⟩ = .legal .rd4u ∧
    decode ⟨0b00#2 ++ 0b1#1 ++ 0b0#1 ++ 0b0#1 ++ 0b011#3, 0⟩ = .legal .rd4s ∧
    decode ⟨0b00#2 ++ 0b0#1 ++ 0b0#1 ++ 0b0#1 ++ 0b111#3, 0⟩ = .legal .rd8u ∧
    decode ⟨0b00#2 ++ 0b0#1 ++ 0b1#1 ++ 0b0#1 ++ 0b000#3, 0⟩ = .legal .rdbool := by decide

/-- Format V: group 01, bits 5:2, L, X. -/
theorem test_decode_format_v :
    decode ⟨0b01#2 ++ 0b0000#4 ++ 0b0#1 ++ 0b0#1, 0⟩ = .legal .smartu ∧
    decode ⟨0b01#2 ++ 0b0000#4 ++ 0b0#1 ++ 0b1#1, 0⟩ = .legal .smarts ∧
    decode ⟨0b01#2 ++ 0b0000#4 ++ 0b1#1 ++ 0b0#1, 0⟩ = .legal .smart4m ∧
    decode ⟨0b01#2 ++ 0b0000#4 ++ 0b1#1 ++ 0b1#1, 0⟩ = .legal .smart4u := by decide

/-- Format M: group 10, bits 5:1, F. -/
theorem test_decode_format_m :
    decode ⟨0b10#2 ++ 0b00000#5 ++ 0b0#1, 0x12345678⟩ = .legal (.wr4 0x12345678) ∧
    decode ⟨0b10#2 ++ 0b00000#5 ++ 0b1#1, 0x12345678⟩ = .legal .decrypt := by decide

/-- Format C: group 11, bits 5:3, K, N. The last line is R111's `SETKEY 2, 0xDEADBEEF`. -/
theorem test_decode_format_c :
    decode ⟨0b11#2 ++ 0b000#3 ++ 0b0#1 ++ 0b00#2, 5⟩ = .legal (.setpos 5) ∧
    decode ⟨0b11#2 ++ 0b000#3 ++ 0b0#1 ++ 0b01#2, 16⟩ = .legal (.setlen 16) ∧
    decode ⟨0b11#2 ++ 0b000#3 ++ 0b0#1 ++ 0b10#2, 7⟩ = .legal .clrkey ∧
    decode ⟨0b11#2 ++ 0b000#3 ++ 0b1#1 ++ 0b00#2, 0xDEADBEEF⟩ = .legal (.setkey 0 0xDEADBEEF) ∧
    decode ⟨0b11#2 ++ 0b000#3 ++ 0b1#1 ++ 0b11#2, 0xFFFFFFFF⟩ = .legal (.setkey 3 0xFFFFFFFF) ∧
    decode ⟨0xC6, 0xDEADBEEF⟩ = .legal (.setkey 2 0xDEADBEEF) := by decide

/-- Vectors I10, I12 and I15. -/
theorem test_decode_reserved :
    decode ⟨0x7F, 0⟩ = .illegal 0x7F ∧ decode ⟨0xBF, 0⟩ = .illegal 0xBF ∧ decode ⟨0xFF, 0⟩ = .illegal 0xFF := by decide

/-! ## One command each (95 §2) -/

theorem test_rd1u : shown (exec .rd1u (loaded [0xFF] 0)) = some (255, 1, 0) := by decide -- S4, V4
theorem test_rd1s : shown (exec .rd1s (loaded [0x80] 0)) = some (0xFFFFFFFFFFFFFF80, 1, 0) := by decide -- V7
theorem test_rd2u : shown (exec .rd2u (loaded [0x12, 0x34] 0)) = some (0x1234, 2, 0) := by decide -- V10
theorem test_rd2s : shown (exec .rd2s (loaded [0xFF, 0xFE] 0)) = some (0xFFFFFFFFFFFFFFFE, 2, 0) := by decide -- V17
theorem test_rd3u : shown (exec .rd3u (loaded [0x80, 0x00, 0x00] 0)) = some (0x800000, 3, 0) := by decide -- V21
theorem test_rd4u : shown (exec .rd4u (loaded [0x80, 0x00, 0x00, 0x00] 0)) = some (0x80000000, 4, 0) := by decide -- V26
theorem test_rd4s : shown (exec .rd4s (loaded [0xDE, 0xAD, 0xBE, 0xEF] 0)) = some (0xFFFFFFFFDEADBEEF, 4, 0) := by
  decide -- V31
theorem test_rd8u : -- V37
    shown (exec .rd8u (loaded [0x01, 0x23, 0x45, 0x67, 0x89, 0xAB, 0xCD, 0xEF] 0)) = some (0x0123456789ABCDEF, 8, 0) := by
  decide
theorem test_rd8u_needs_all_eight : -- X8: POS does not move by 4
    shown (exec .rd8u (loaded [1, 2, 3, 4, 5, 6, 7] 0)) = some (0, 0, 1) := by decide
theorem test_rdbool : shown (exec .rdbool (loaded [0x01] 0)) = some (1, 1, 0) := by decide -- V40
theorem test_rdbool_other : -- V42, and the note below the table of §2.1 for BOOL_OTHER = 1
    shown (exec .rdbool (loaded [0xFF] 0)) = some (0, 1, 0) ∧
    shown (exec .rdbool { loaded [0xFF] 0 with cfg := { bufCap := 64, boolOther := true } }) = some (1, 1, 0) := by decide
theorem test_smartu_short : shown (exec .smartu (loaded [0x7F] 0)) = some (127, 1, 0) := by decide -- V45
theorem test_smartu_long : shown (exec .smartu (loaded [0x81, 0x00] 0)) = some (256, 2, 0) := by decide -- S8
theorem test_smarts_short : shown (exec .smarts (loaded [0x00] 0)) = some (0xFFFFFFFFFFFFFFC0, 1, 0) := by decide -- S10
theorem test_smarts_long : shown (exec .smarts (loaded [0x80, 0x00] 0)) = some (0xFFFFFFFFFFFFC000, 2, 0) := by
  decide -- V54
theorem test_smart4m_short : shown (exec .smart4m (loaded [0x05, 0x00] 0)) = some (1280, 2, 0) := by decide -- V61
theorem test_smart4m_long : shown (exec .smart4m (loaded [0x80, 0x01, 0x00, 0x00] 0)) = some (65536, 4, 0) := by
  decide -- V65
theorem test_smart4u_short : shown (exec .smart4u (loaded [0x7F, 0xFF] 0)) = some (32767, 2, 0) := by decide -- V69
theorem test_smart4u_long : -- V71
    shown (exec .smart4u (loaded [0x80, 0x00, 0x00, 0x05] 0)) = some (0xFFFFFFFF80000005, 4, 0) := by decide
theorem test_wr4 : -- W6
    stored (exec (.wr4 0xDEADBEEF) (loaded (List.replicate 7 0xAA) 3)) =
      some (cells 0 [0xAA, 0xAA, 0xAA, 0xDE, 0xAD, 0xBE, 0xEF], 7, 0) := by decide
theorem test_wr4_out_of_bounds : -- X19: nothing written
    stored (exec (.wr4 0x12345678) (loaded (List.replicate 6 0) 3)) = some (cells 0 (List.replicate 6 0), 3, 1) := by decide
theorem test_decrypt : -- T1, the published XTEA vector
    stored (exec .decrypt sealed) =
      some (cells 0 [0x01, 0x00, 0x00, 0x00, 0x08, 0x41, 0x42, 0x43, 0x44, 0x45, 0x46, 0x47, 0x48], 1, 0) := by
  decide +kernel
theorem test_decrypt_two_blocks : -- T10: no chaining, and the three trailing bytes stay
    stored (exec .decrypt { loaded (container ++ container.drop 5 ++ [0x11, 0x22, 0x33]) 0 with key := containerKey }) =
      some (cells 0 ([0x01, 0x00, 0x00, 0x00, 0x08, 0x41, 0x42, 0x43, 0x44, 0x45, 0x46, 0x47, 0x48,
        0x41, 0x42, 0x43, 0x44, 0x45, 0x46, 0x47, 0x48, 0x11, 0x22, 0x33]), 0, 0) := by
  decide +kernel
theorem test_xtea_vectors : -- T3, T4, T5
    xteaDec 0 0 Key.zero = (0x2B6E57D5, 0x667C2111) ∧
    xteaDec 0xFFFFFFFF 0xFFFFFFFF ⟨0xFFFFFFFF, 0xFFFFFFFF, 0xFFFFFFFF, 0xFFFFFFFF⟩ = (0xF3FCC7EF, 0xE11D66E5) ∧
    xteaDec 0x01234567 0x89ABCDEF ⟨0x01234567, 0x89ABCDEF, 0xFEDCBA98, 0x76543210⟩ = (0x0B31A545, 0xA51B13E5) := by
  decide +kernel
theorem test_xtea_first_round : -- the first two rows of the trace of T1
    xteaRounds containerKey 2 0x497DF3D0 0x72612CB5 0xC6EF3720 = (0xD53DE450, 0xA10822D4) := by decide +kernel
theorem test_setpos : shown (exec (.setpos 5) (loaded (List.replicate 8 0) 0)) = some (0, 5, 0) := by decide -- K1
theorem test_setpos_past_length : -- K4
    shown (exec (.setpos 4294967295) (loaded (List.replicate 8 0) 8)) = some (0, 8, 3) := by decide
theorem test_setlen : -- K5, K6: BUF_CAP = 16
    (nextOf (exec (.setlen 16) { loaded [] 0 with cfg := { bufCap := 16, boolOther := false } })).map
      (fun t => (t.length, t.pos, t.status)) = some (16, 0, 0) ∧
    (nextOf (exec (.setlen 17) { loaded [7] 1 with cfg := { bufCap := 16, boolOther := false } })).map
      (fun t => (t.length, t.pos, t.status)) = some (1, 1, 3) := by decide
theorem test_setkey : -- R212's example
    (nextOf (exec (.setkey 2 0x08090A0B) (loaded [] 0))).map (fun t => (t.key, t.status)) =
      some (⟨0, 0, 0x08090A0B, 0⟩, 0) := by decide
theorem test_clrkey : -- R213's example
    (nextOf (exec .clrkey { loaded [] 0 with key := ⟨1, 2, 3, 4⟩ })).map (fun t => (t.key, t.status)) =
      some (⟨0, 0, 0, 0⟩, 0) := by decide

/-! ## The step, the ports, scripts -/

/-- From reset, the first step runs the command that is placed: with LENGTH = 0, RD1U is E_BOUNDS (X1). -/
theorem test_first_step_after_reset : shown (step (State.reset.withFetchWord 8 0x00)) = some (0, 0, 1) := by decide

/-- `SETPOS 0` as a 40-bit table word with its ARG, and a reserved word (I1), in one step each. -/
theorem test_step_of_table_words :
    shown (step ((loaded [1, 2] 2).withFetchWord 40 0xC0)) = some (0, 0, 0) ∧
    shown (step ((loaded [1, 2] 2).withFetchWord 40 (0xC0 + 256 * 1))) = some (0, 1, 0) ∧
    shown (step ((loaded [1, 2] 2).withFetchWord 8 0x04)) = some (0, 2, 2) := by decide

/-- R220: the three breaches of the host's duty. -/
theorem test_host_breaches :
    refusalOf (step (offered [Inputs.hbr 64] [] 0)) = some (.hostPortAddress 64) ∧
    refusalOf (step (offered [{ Inputs.hbr 0 with cmdValid := true }] [] 0)) = some .hostPortInAcceptingCycle ∧
    refusalOf (step { offered [Inputs.hbw 0 1] [] 0 with phase := .busy }) = some .hostPortWhileBusy := by decide

/-- R261: under `rst` even a breach is ignored. -/
theorem test_reset_ignores_host_port :
    (nextOf (step (offered [{ Inputs.hbr 64 with rst := true, cmdValid := true }] [7] 0))).map
      (fun t => (t.buf, t.length, t.status, t.phase)) = some ([], 0, 0x0F, .idle) := by decide

/-- R236, R243: a read past the written bytes of a longer buffer is UNINIT (at the lowest byte with no value, assumption 16), and the log takes it
after the error responses before it. -/
theorem test_uninit :
    faultOf (exec .rd4u holed) = some (.uninit .rd4u 2 [.uninit .rd4u 2]) ∧ faultOf (exec .rd8u holed) = some (.uninit .rd8u 2 [.uninit .rd8u 2]) ∧
    faultOf (exec .smart4m { holed with pos := 2 }) = some (.uninit .smart4m 2 [.uninit .smart4m 2]) ∧
    faultOf (core.run 2 { holed with inputs := [Inputs.ofCommand ⟨0x04, 0⟩, Inputs.ofCommand ⟨0x03, 0⟩] }) =
      some (.uninit .rd4u 2 [.uninit .rd4u 2, .illegalWord 0x04]) := by decide

/-- R111: text, with a comment, a negative operand, a line without a command, and rejected lines. -/
theorem test_assemble_text :
    assembleText "SETKEY 2, 0xDEADBEEF ; hi".toList = some [Inputs.ofCommand ⟨0xC6, 0xDEADBEEF⟩] ∧
    assembleText "WR4 -1".toList = some [Inputs.ofCommand ⟨0x80, 0xFFFFFFFF⟩] ∧
    assembleText "  ; only a comment".toList = some [] ∧
    assembleText "RD1U 5".toList = none ∧ assembleText "SETPOS -1".toList = none ∧ assembleText "SKIP 4".toList = none := by
  decide

/-- R112: LOAD. -/
theorem test_assemble_load :
    assembleText "LOAD 1, 0xFF".toList =
      some [Inputs.hbw 0 1, Inputs.hbw 1 0xFF, Inputs.ofCommand ⟨0xC1, 2⟩] := by decide

/-! ## Witnesses: states and operands that meet the hypotheses of each statement that has any -/

theorem witness_ResetCycleRestoresReset :
    (offered [{ Inputs.hbr 64 with rst := true }] [7] 0).inputs = [{ Inputs.hbr 64 with rst := true }] ∧
    ({ Inputs.hbr 64 with rst := true } : Inputs).rst = true := by decide

theorem witness_OutputPortsCopyRegisters : sealed.resultValid = true := by decide

theorem witness_HostWriteStoresOneByte : -- the last address below BUF_CAP
    (offered [Inputs.hbw 63 5] [] 0).phase = .idle ∧ (63 : Word).toNat < (offered [Inputs.hbw 63 5] [] 0).cfg.bufCap ∧
    (offered [Inputs.hbw 63 5] [] 0).inputs = [Inputs.hbw 63 5] := by decide

theorem witness_HostReadShowsTheByte : -- a byte with a value, and (at 63) one without
    ((offered [Inputs.hbr 0] [9] 0).phase = .idle ∧ (0 : Word).toNat < (offered [Inputs.hbr 0] [9] 0).cfg.bufCap ∧
      (offered [Inputs.hbr 0] [9] 0).inputs = [Inputs.hbr 0] ∧ (offered [Inputs.hbr 0] [9] 0).buf.read 0 = some 9) ∧
    ((63 : Word).toNat < (offered [Inputs.hbr 63] [9] 0).cfg.bufCap ∧
      (offered [Inputs.hbr 63] [9] 0).buf.read 63 = none) := by decide

theorem witness_RefusalIsExactlyHostBreach : -- one sample within the duty, one outside it
    hostDuty (loaded [] 0) (Inputs.hbr 63) ∧ ¬ hostDuty (loaded [] 0) (Inputs.hbr 64) := by
  unfold hostDuty; decide

theorem witness_QuietCycleKeepsArchitecture : (loaded [9] 0).inputs = [] := by decide

theorem witness_BusyHoldsOfferedCommand :
    let x := Inputs.ofCommand ⟨0x00, 0⟩
    let s := { offered [x] [9] 0 with phase := .busy }
    s.inputs = [x] ∧ s.phase = .busy ∧ x.rst = false ∧ x.cmdValid = true ∧ x.hbEn = false := by decide

theorem witness_EncodeOfDecodeIsTheWord :
    decode ⟨0x80, 7⟩ = .legal (.wr4 7) ∧ Instr.takesNoOperand (.wr4 7) = false := by decide

theorem witness_CommandsWithoutOperandIgnoreArg :
    (decode ⟨0x81, 7⟩ = .legal .decrypt ∧ Instr.takesNoOperand .decrypt = true) ∧
    decode ⟨0xC1, 7⟩ = .legal (.setlen 7) ∧ decode ⟨0xC1, 8⟩ = .legal (.setlen 8) := by decide

theorem witness_StepRunsDecodedCommand :
    let x := Inputs.ofCommand ⟨0xC5, 7⟩
    let s := offered [x] [9] 0
    s.inputs = [x] ∧ s.phase = .idle ∧ x.rst = false ∧ x.cmdValid = true ∧ x.hbEn = false ∧
      decode ⟨x.cmdOp, x.cmdArg⟩ = .legal (.setkey 1 7) := by decide

theorem witness_ReservedWordRaisesIllegal :
    let x := Inputs.ofCommand ⟨0xC3, 7⟩
    let s := offered [x] [9] 0
    s.inputs = [x] ∧ s.phase = .idle ∧ x.rst = false ∧ x.cmdValid = true ∧ x.hbEn = false ∧
      Command.wellFormed ⟨x.cmdOp, x.cmdArg⟩ = false := by decide

theorem witness_Rd1uReadsOneByteUnsigned : -- POS = LENGTH; POS = LENGTH − 1
    ¬ (loaded [0x11] 1).pos.toNat + 1 ≤ (loaded [0x11] 1).length.toNat ∧
    (loaded [0x11, 0xFF] 1).pos.toNat + 1 ≤ (loaded [0x11, 0xFF] 1).length.toNat ∧
    holdsBytes (loaded [0x11, 0xFF] 1).buf 1 [0xFF] := ⟨by decide, by decide, rfl, trivial⟩

theorem witness_Rd1sReadsOneByteSigned :
    ¬ (loaded [0x11] 1).pos.toNat + 1 ≤ (loaded [0x11] 1).length.toNat ∧
    (loaded [0x80] 0).pos.toNat + 1 ≤ (loaded [0x80] 0).length.toNat ∧
    holdsBytes (loaded [0x80] 0).buf 0 [0x80] := ⟨by decide, by decide, rfl, trivial⟩

theorem witness_Rd2uReadsTwoBytesUnsigned :
    ¬ (loaded [0x11] 0).pos.toNat + 2 ≤ (loaded [0x11] 0).length.toNat ∧
    (loaded [0x12, 0x34] 0).pos.toNat + 2 ≤ (loaded [0x12, 0x34] 0).length.toNat ∧
    holdsBytes (loaded [0x12, 0x34] 0).buf 0 [0x12, 0x34] := ⟨by decide, by decide, rfl, rfl, trivial⟩

theorem witness_Rd2sReadsTwoBytesSigned :
    ¬ (loaded [1, 2, 3] 2).pos.toNat + 2 ≤ (loaded [1, 2, 3] 2).length.toNat ∧
    (loaded [0x80, 0x00] 0).pos.toNat + 2 ≤ (loaded [0x80, 0x00] 0).length.toNat ∧
    holdsBytes (loaded [0x80, 0x00] 0).buf 0 [0x80, 0x00] := ⟨by decide, by decide, rfl, rfl, trivial⟩

theorem witness_Rd3uReadsThreeBytesUnsigned :
    ¬ (loaded [1, 2] 0).pos.toNat + 3 ≤ (loaded [1, 2] 0).length.toNat ∧
    (loaded [0x80, 0, 1] 0).pos.toNat + 3 ≤ (loaded [0x80, 0, 1] 0).length.toNat ∧
    holdsBytes (loaded [0x80, 0, 1] 0).buf 0 [0x80, 0, 1] := ⟨by decide, by decide, rfl, rfl, rfl, trivial⟩

theorem witness_Rd4uReadsFourBytesUnsigned :
    ¬ (loaded [1, 2, 3] 0).pos.toNat + 4 ≤ (loaded [1, 2, 3] 0).length.toNat ∧
    (loaded [1, 2, 3, 4] 0).pos.toNat + 4 ≤ (loaded [1, 2, 3, 4] 0).length.toNat ∧
    holdsBytes (loaded [1, 2, 3, 4] 0).buf 0 [1, 2, 3, 4] := ⟨by decide, by decide, rfl, rfl, rfl, rfl, trivial⟩

theorem witness_Rd4sReadsFourBytesSigned :
    ¬ (loaded [1, 2, 3, 4, 5] 2).pos.toNat + 4 ≤ (loaded [1, 2, 3, 4, 5] 2).length.toNat ∧
    (loaded [0xFF, 2, 3, 4] 0).pos.toNat + 4 ≤ (loaded [0xFF, 2, 3, 4] 0).length.toNat ∧
    holdsBytes (loaded [0xFF, 2, 3, 4] 0).buf 0 [0xFF, 2, 3, 4] := ⟨by decide, by decide, rfl, rfl, rfl, rfl, trivial⟩

theorem witness_Rd8uReadsEightBytesUnsigned :
    ¬ (loaded [1, 2, 3, 4, 5, 6, 7] 0).pos.toNat + 8 ≤ (loaded [1, 2, 3, 4, 5, 6, 7] 0).length.toNat ∧
    (loaded [1, 2, 3, 4, 5, 6, 7, 8] 0).pos.toNat + 8 ≤ (loaded [1, 2, 3, 4, 5, 6, 7, 8] 0).length.toNat ∧
    holdsBytes (loaded [1, 2, 3, 4, 5, 6, 7, 8] 0).buf 0 [1, 2, 3, 4, 5, 6, 7, 8] :=
  ⟨by decide, by decide, rfl, rfl, rfl, rfl, rfl, rfl, rfl, rfl, trivial⟩

theorem witness_RdboolReadsOneByteBoolean : -- a byte 1, a byte 0, the least and the greatest other byte
    ¬ (loaded [0x01] 1).pos.toNat + 1 ≤ (loaded [0x01] 1).length.toNat ∧
    ((loaded [1] 0).pos.toNat + 1 ≤ (loaded [1] 0).length.toNat ∧ holdsBytes (loaded [1] 0).buf 0 [1]) ∧
    holdsBytes (loaded [0] 0).buf 0 [0] ∧ holdsBytes (loaded [2] 0).buf 0 [2] ∧ holdsBytes (loaded [255] 0).buf 0 [255] :=
  ⟨by decide, ⟨by decide, rfl, trivial⟩, ⟨rfl, trivial⟩, ⟨rfl, trivial⟩, rfl, trivial⟩

theorem witness_Wr4WritesFourBytesBigEndian : -- POS + 4 = LENGTH + 1; POS + 4 = LENGTH
    ¬ (loaded [0, 0, 0, 0, 0, 0] 3).pos.toNat + 4 ≤ (loaded [0, 0, 0, 0, 0, 0] 3).length.toNat ∧
    (loaded [0, 0, 0, 0, 0, 0] 2).pos.toNat + 4 ≤ (loaded [0, 0, 0, 0, 0, 0] 2).length.toNat := by decide

theorem witness_MemReadAndMemWriteAreBigEndian :
    holdsBytes (loaded [1, 2, 3] 0).buf 1 [2, 3] ∧ 65535 < 256 ^ 2 := ⟨⟨rfl, rfl, trivial⟩, by decide⟩

theorem witness_WriteThenReadRoundTrips : -- R3's place: p + 4 = LENGTH
    let s := offered [driveInstr (.setpos 2), driveInstr (.wr4 0x80000000), driveInstr (.setpos 2), driveInstr .rd4s]
      [0, 0, 0, 0, 0, 0] 0
    s.phase = .idle ∧ (2 : Word).toNat + 4 ≤ s.length.toNat ∧
      s.inputs = driveInstr (.setpos 2) :: driveInstr (.wr4 0x80000000) :: driveInstr (.setpos 2) :: driveInstr .rd4s :: [] := by
  decide

theorem witness_SignedAndUnsignedReadsDifferByTopBit : -- the top bit set, for each width, and clear
    ∀ p ∈ [(Instr.rd1u, Instr.rd1s, loaded [0x80] 0), (.rd2u, .rd2s, loaded [0x80, 0] 0),
        (.rd4u, .rd4s, loaded [0x80, 0, 0, 0] 0), (.rd4u, .rd4s, loaded [0x7F, 0, 0, 0] 0)],
      (nextOf (exec p.1 p.2.2)).map State.status = some 0 := by decide

theorem witness_SmartuDecodesShortAndLong : -- no byte; the short form; the long form one byte short, and in full
    ¬ (loaded [] 0).pos.toNat + 1 ≤ (loaded [] 0).length.toNat ∧
    ((loaded [0x7F] 0).pos.toNat + 1 ≤ (loaded [0x7F] 0).length.toNat ∧ holdsBytes (loaded [0x7F] 0).buf 0 [0x7F] ∧
      (0x7F : Byte).msb = false) ∧
    (¬ (loaded [0x80] 0).pos.toNat + 2 ≤ (loaded [0x80] 0).length.toNat ∧ holdsBytes (loaded [0x80] 0).buf 0 [0x80] ∧
      (0x80 : Byte).msb = true) ∧
    ((loaded [0x80, 0] 0).pos.toNat + 2 ≤ (loaded [0x80, 0] 0).length.toNat ∧ holdsBytes (loaded [0x80, 0] 0).buf 0 [0x80, 0]) :=
  ⟨by decide, ⟨by decide, ⟨rfl, trivial⟩, by decide⟩, ⟨by decide, ⟨rfl, trivial⟩, by decide⟩, by decide, rfl, rfl, trivial⟩

theorem witness_SmartsDecodesShortAndLong :
    ¬ (loaded [] 0).pos.toNat + 1 ≤ (loaded [] 0).length.toNat ∧
    ((loaded [0x00] 0).pos.toNat + 1 ≤ (loaded [0x00] 0).length.toNat ∧ holdsBytes (loaded [0x00] 0).buf 0 [0x00] ∧
      (0x00 : Byte).msb = false) ∧
    (¬ (loaded [0xFF] 0).pos.toNat + 2 ≤ (loaded [0xFF] 0).length.toNat ∧ holdsBytes (loaded [0xFF] 0).buf 0 [0xFF] ∧
      (0xFF : Byte).msb = true) ∧
    ((loaded [0xFF, 0xFF] 0).pos.toNat + 2 ≤ (loaded [0xFF, 0xFF] 0).length.toNat ∧
      holdsBytes (loaded [0xFF, 0xFF] 0).buf 0 [0xFF, 0xFF]) :=
  ⟨by decide, ⟨by decide, ⟨rfl, trivial⟩, by decide⟩, ⟨by decide, ⟨rfl, trivial⟩, by decide⟩, by decide, rfl, rfl, trivial⟩

theorem witness_Smart4mDecodesShortAndLong : -- no byte; short and long one byte short; short and long in full
    ¬ (loaded [] 0).pos.toNat + 1 ≤ (loaded [] 0).length.toNat ∧
    (¬ (loaded [0x05] 0).pos.toNat + (if (0x05 : Byte).msb then 4 else 2) ≤ (loaded [0x05] 0).length.toNat ∧
      holdsBytes (loaded [0x05] 0).buf 0 [0x05]) ∧
    (¬ (loaded [0x80, 0, 0] 0).pos.toNat + (if (0x80 : Byte).msb then 4 else 2) ≤ (loaded [0x80, 0, 0] 0).length.toNat ∧
      holdsBytes (loaded [0x80, 0, 0] 0).buf 0 [0x80]) ∧
    ((loaded [0x7F, 0xFF] 0).pos.toNat + 2 ≤ (loaded [0x7F, 0xFF] 0).length.toNat ∧
      holdsBytes (loaded [0x7F, 0xFF] 0).buf 0 [0x7F, 0xFF]) ∧
    ((loaded [0x80, 0, 0, 5] 0).pos.toNat + 4 ≤ (loaded [0x80, 0, 0, 5] 0).length.toNat ∧
      holdsBytes (loaded [0x80, 0, 0, 5] 0).buf 0 [0x80, 0, 0, 5]) :=
  ⟨by decide, ⟨by decide, rfl, trivial⟩, ⟨by decide, rfl, trivial⟩, ⟨by decide, rfl, rfl, trivial⟩,
    by decide, rfl, rfl, rfl, rfl, trivial⟩

theorem witness_Smart4uDecodesShortAndLong :
    ¬ (loaded [] 0).pos.toNat + 1 ≤ (loaded [] 0).length.toNat ∧
    (¬ (loaded [0x7F] 0).pos.toNat + (if (0x7F : Byte).msb then 4 else 2) ≤ (loaded [0x7F] 0).length.toNat ∧
      holdsBytes (loaded [0x7F] 0).buf 0 [0x7F]) ∧
    (¬ (loaded [0xFF, 0xFF, 0xFF] 0).pos.toNat + (if (0xFF : Byte).msb then 4 else 2) ≤
        (loaded [0xFF, 0xFF, 0xFF] 0).length.toNat ∧ holdsBytes (loaded [0xFF, 0xFF, 0xFF] 0).buf 0 [0xFF]) ∧
    ((loaded [0, 0] 0).pos.toNat + 2 ≤ (loaded [0, 0] 0).length.toNat ∧ holdsBytes (loaded [0, 0] 0).buf 0 [0, 0]) ∧
    ((loaded [0xFF, 0xFF, 0xFF, 0xFE] 0).pos.toNat + 4 ≤ (loaded [0xFF, 0xFF, 0xFF, 0xFE] 0).length.toNat ∧
      holdsBytes (loaded [0xFF, 0xFF, 0xFF, 0xFE] 0).buf 0 [0xFF, 0xFF, 0xFF, 0xFE]) :=
  ⟨by decide, ⟨by decide, rfl, trivial⟩, ⟨by decide, rfl, trivial⟩, ⟨by decide, rfl, rfl, trivial⟩,
    by decide, rfl, rfl, rfl, rfl, trivial⟩

/-- Each read command completes with OK on eight bytes, of either form; so a next state with a number exists. -/
theorem witness_ReadResultsLieInTheirRanges :
    ∀ i ∈ readCommands, (signednessOf i).isSome = true ∧
      (nextOf (exec i (loaded [0, 1, 2, 3, 4, 5, 6, 7] 0))).map State.status = some 0 ∧
      (nextOf (exec i (loaded [0xFF, 1, 2, 3, 4, 5, 6, 7] 0))).map State.status = some 0 := by decide

theorem witness_OnlyCompletedReadsWriteResult : -- a command without a number, and a read that raises an error
    (signednessOf .clrkey = none ∧ (nextOf (exec .clrkey (loaded [] 0))).isSome = true) ∧
    (nextOf (exec .rd1u (loaded [] 0))).map State.status = some 1 := by decide

theorem witness_DecryptDeciphersEveryBlock : -- LENGTH = 13: one block; LENGTH = 12: none; an unwritten block byte
    (1 = (if 5 ≤ sealed.length.toNat then (sealed.length.toNat - 5) / 8 else 0) ∧
      ∀ j, j < 8 * 1 → sealed.buf.read (5 + j) = some (container.getD (5 + j) 0)) ∧
    0 = (if 5 ≤ (loaded (container.take 12) 0).length.toNat then ((loaded (container.take 12) 0).length.toNat - 5) / 8
      else 0) ∧
    (1 = (if 5 ≤ ({ holed with length := 13 } : State).length.toNat then (({ holed with length := 13 } : State).length.toNat - 5) / 8
      else 0) ∧ 7 < 8 * 1 ∧ ({ holed with length := 13 } : State).buf.read (5 + 7) = none) := by decide

theorem witness_DecryptOfShortBufferChangesNothing : -- T6, T8
    (loaded (container.take 12) 0).length.toNat < 13 ∧ (loaded [] 0).length.toNat < 13 := by decide

theorem witness_SetposSetsCursorWithinLength : -- K2, K3
    (9 : Word).toNat > (loaded (List.replicate 8 0) 5).length.toNat ∧
    (8 : Word).toNat ≤ (loaded (List.replicate 8 0) 5).length.toNat := by decide

theorem witness_SetlenSetsLengthAndRewinds : -- BUF_CAP = 64
    (65 : Word).toNat > (loaded [] 0).cfg.bufCap ∧ (64 : Word).toNat ≤ (loaded [] 0).cfg.bufCap := by decide

theorem witness_LoadSequenceBuildsTheBuffer : -- as many bytes as BUF_CAP
    let s := { offered (loadSequence [7, 8]) [] 0 with cfg := { bufCap := 2, boolOther := false } }
    s.phase = .idle ∧ s.cfg.wf ∧ [7, 8].length ≤ s.cfg.bufCap ∧ s.inputs = loadSequence [7, 8] ++ [] := by decide

/-- What `KEY -1, 2, 3, 4` drives (R112). -/
def keyCommands : List Inputs :=
  [driveInstr (.setkey 0 0xFFFFFFFF), driveInstr (.setkey 1 2), driveInstr (.setkey 2 3), driveInstr (.setkey 3 4)]

theorem witness_RewindAndKeyPseudosRun : -- REWIND and KEY offered while IDLE; the greatest SKIP; a LOAD
    ((offered [driveInstr (.setpos 0)] [7] 1).phase = .idle ∧
      (offered [driveInstr (.setpos 0)] [7] 1).inputs = [driveInstr (.setpos 0)]) ∧
    ((offered keyCommands [7] 1).phase = .idle ∧ (offered keyCommands [7] 1).inputs = keyCommands ++ []) ∧
    2 ^ 32 - 2 + 1 < 2 ^ 32 ∧ ([7, 8] : List Byte).length < 2 ^ 32 := by
  decide

theorem witness_BoundsErrorExactlyOutOfRange : -- in range and out of range, for each kind of command
    (nextOf (exec .rd8u (loaded [1, 2, 3, 4, 5, 6, 7, 8] 0))).isSome = true ∧
    (nextOf (exec .rd8u (loaded [1, 2, 3, 4, 5, 6, 7] 0))).isSome = true ∧
    (nextOf (exec (.wr4 0) (loaded [0, 0, 0, 0] 1))).isSome = true ∧
    (nextOf (exec .smart4u (loaded [0xFF, 0xFF, 0xFF] 0))).isSome = true ∧
    (nextOf (exec .smartu (loaded [] 0))).isSome = true ∧ (nextOf (exec .decrypt (loaded [] 0))).isSome = true := by decide

theorem witness_ErrorChangesOnlyStatus :
    (nextOf (exec .rd2u (loaded [1] 0))).map State.status = some 1 ∧
    (nextOf (exec (.setlen 65) (loaded [1] 0))).map State.status = some 3 := by decide

theorem witness_CommandAnswersOneResponse :
    (nextOf (exec .rd1u (loaded [1] 0))).map State.status = some 0 ∧
    (nextOf (exec .rd1u (loaded [1] 1))).map State.status = some 1 := by decide

theorem witness_FaultIsAReadOfAnUnwrittenByte :
    faultOf (exec .rd3u holed) = some (.uninit .rd3u 2 [.uninit .rd3u 2]) ∧
    faultOf (exec .decrypt { holed with length := 13 }) = some (.uninit .decrypt 5 [.uninit .decrypt 5]) := by decide

theorem witness_ReadOfUnwrittenByteIsUninit : -- RD8U: k = 2, and POS + 8 = LENGTH; SMART4M at the peek, and its long form at k = 2
    (fixedWidth .rd8u = some 8 ∧ holed.pos.toNat + 8 ≤ holed.length.toNat ∧
      (∀ j, j < 2 → (holed.buf.read (holed.pos.toNat + j)).isSome = true) ∧ holed.buf.read (holed.pos.toNat + 2) = none) ∧
    smartWidths .smart4m = some (2, 4) ∧
    (({ holed with pos := 7 } : State).pos.toNat + 1 ≤ holed.length.toNat ∧ holed.buf.read 7 = none) ∧
    (holed.buf.read holed.pos.toNat = some 0x81 ∧
      holed.pos.toNat + (if (0x81 : Byte).msb then 4 else 2) ≤ holed.length.toNat ∧
      2 < (if (0x81 : Byte).msb then 4 else 2)) := by decide

theorem witness_ReadCommandFrame :
    ∀ i ∈ readCommands, signednessOf i ≠ none ∧ (nextOf (exec i (loaded [0x80, 1, 2, 3, 4, 5, 6, 7] 0))).isSome = true := by
  decide

theorem witness_StoringCommandFrame :
    (nextOf (exec (.wr4 5) sealed)).isSome = true ∧ (nextOf (exec .decrypt sealed)).isSome = true := by decide +kernel

theorem witness_ControlCommandFrame :
    ∀ i ∈ [Instr.setpos 1, .setlen 2, .setkey 3 4, .clrkey], (nextOf (exec i sealed)).isSome = true := by decide

theorem witness_CommandsStayBelowLength : -- LENGTH = 1, and two memories that differ at 1 only
    (∀ a, a < (loaded [9] 0).length.toNat → (cells 0 [9, 5]).read a = (loaded [9] 0).buf.read a) ∧
    (nextOf (exec .rd1u (loaded [9] 0))).isSome = true ∧ (faultOf (exec .rd8u holed)).isSome = true := by decide

theorem witness_KeyIsReadByDecryptOnly :
    Instr.rd1u ≠ .decrypt ∧ (nextOf (exec .rd1u (loaded [9] 0))).isSome = true ∧
    (nextOf (exec (.setkey 1 7) (loaded [9] 0))).isSome = true := by decide

theorem witness_CanonicalMemoriesAreExtensional : Memory.wf (cells 0 [9, 5]) := by decide

theorem witness_ResetSatisfiesInvariant : -- both ends of BUF_CAP's range
    Config.wf { bufCap := 1, boolOther := true } ∧ Config.wf { bufCap := 2 ^ 32 - 1, boolOther := false } := by decide

/-- A machine offered RD1U with two written bytes satisfies the invariant. -/
theorem inv_offered : Inv (offered [Inputs.ofCommand ⟨0x00, 0⟩] [7, 8] 1) where
  cfg := by decide
  length_le := by decide
  pos_le := by decide
  buf_wf := by decide
  buf_below a b h := by
    have h := Memory.mem_of_read h
    simp only [offered, State.drive, loaded, cells, List.mem_cons, Prod.mk.injEq, List.not_mem_nil, or_false] at h
    show a < 64
    omega
  reserved_zero := by decide
  code_legal := by decide
  idle := rfl

theorem witness_EveryStepKeepsInvariant :
    ∃ s t : State, Inv s ∧ step s = .next t ∧ t.pos = 2 := ⟨_, _, inv_offered, rfl, rfl⟩

theorem witness_LogIsSticky : -- a step that answers an error, one that does not, and one that stops
    (nextOf (step (offered [Inputs.ofCommand ⟨0x04, 0⟩] [7] 0))).map State.log = some [.illegalWord 0x04] ∧
    (nextOf (step (offered [Inputs.ofCommand ⟨0x00, 0⟩] [7] 0))).map State.log = some [] ∧
    faultOf (step { holed with inputs := [Inputs.ofCommand ⟨0x02, 0⟩] }) = some (.uninit .rd3u 2 [.uninit .rd3u 2]) := by decide

theorem witness_CleanLogMeansNoErrorOnTheWay :
    ∃ s t u : State, Reaches s t ∧ Reaches t u ∧ clean u ∧ u.pos = 1 ∧
      ∃ v : State, step t = .next v ∧ Reaches v u ∧ v.rspValid = true :=
  ⟨offered [Inputs.ofCommand ⟨0x00, 0⟩] [7] 0, _, _, .refl, .step .refl rfl, rfl, rfl, _, rfl, .refl, rfl⟩

theorem witness_WrittenBufferNeverStops :
    ∃ s : State, Inv s ∧ hostDuty s (sample s) ∧ Written s := by
  refine ⟨_, inv_offered, .inr (.inl rfl), fun a ha => ?_⟩
  have : a < 2 := ha
  match a, this with
  | 0, _ => exact ⟨7, rfl⟩
  | 1, _ => exact ⟨8, rfl⟩

end Sys2Proof.Tests
end

section
/-! `MemRead` and `MemWrite` of `spec/00_scope.md` rule R14. `MemRead` and the big-endian value both grow at the last byte,
so lists of bytes are taken apart at their end here; the laws of `MemWrite` are those of `Laws/Memory.lean`. -/

namespace Sys2Proof.Machine

/-- `holdsBytes` at the last byte. -/
theorem holdsBytes_concat {m : Memory} {a : Nat} {bs : List Byte} {b : Byte} :
    holdsBytes m a (bs ++ [b]) ↔ holdsBytes m a bs ∧ m.read (a + bs.length) = some b := by
  induction bs generalizing a with
  | nil => simp [holdsBytes]
  | cons c bs ih =>
    have hlen : a + 1 + bs.length = a + (bs.length + 1) := by omega
    simp only [List.cons_append, holdsBytes, ih, List.length_cons, hlen, and_assoc]

/-- `MemRead` of written bytes is their big-endian value (R14). -/
theorem memRead_of_holdsBytes {m : Memory} {a : Nat} {bs : List Byte} (h : holdsBytes m a bs) :
    memRead m a bs.length = .ok (bs.foldl (fun v b => v * 256 + b.toNat) 0) := by
  induction bs using List.reverseRecOn with
  | nil => rfl
  | append_singleton bs b ih =>
    obtain ⟨hbs, hb⟩ := holdsBytes_concat.1 h
    rw [List.length_append, List.length_singleton, List.foldl_concat]
    exact memRead_succ_ok.2 ⟨_, b, ih hbs, hb, rfl⟩

/-- `MemRead` stops at its first byte where that holds no value. -/
theorem memRead_of_first_unwritten {m : Memory} {a : Nat} (h : m.read a = none) (n : Nat) :
    memRead m a (n + 1) = .error a := by
  induction n with
  | zero => simp [memRead, h]
  | succ n ih => rw [memRead, ih]

/-- `MemRead` stops at the lowest address of its range that holds no value (assumption 16). -/
theorem memRead_of_lowest_unwritten {m : Memory} {a n k : Nat} (hk : k < n)
    (hbelow : ∀ j, j < k → ∃ b, m.read (a + j) = some b) (hnone : m.read (a + k) = none) :
    memRead m a n = .error (a + k) := by
  obtain ⟨r, rfl⟩ : ∃ r, n = k + (r + 1) := ⟨n - k - 1, by omega⟩
  obtain ⟨v, hv⟩ : ∃ v, memRead m a k = .ok v := memRead_ok_of_written fun x hax hx => by
    simpa [Nat.add_sub_of_le hax] using hbelow (x - a) (by omega)
  rw [memRead_add, hv, memRead_of_first_unwritten hnone]

/-- Settles O26: `MemRead` by induction on the bytes from the last one, its stop by splitting the range at the lowest
unwritten byte, `MemWrite` by the laws of its bytes. -/
theorem memReadAndMemWriteAreBigEndian : Obligations.MemReadAndMemWriteAreBigEndian := by
  unfold Obligations.MemReadAndMemWriteAreBigEndian
  intro m a
  refine ⟨fun bs => memRead_of_holdsBytes, fun n k => memRead_of_lowest_unwritten, fun n v hv =>
    ⟨fun i hi => ?_, fun x => memWrite_read_outside m, ?_⟩⟩
  · rw [memWrite_read_inside m hi, Nat.pow_mul]
  · rw [memRead_memWrite_same, Nat.mod_eq_of_lt hv]

end Sys2Proof.Machine
end

section
/-! What each command can do, once for all commands: the inversion lemma of `exec` that the statements about every command are
derived from, and the same command on a state that differs in KEY alone. -/

namespace Sys2Proof.Machine

/-! ## The commands by their shape -/

/-- A command returns a number (R110), or it is one of the six that do not. -/
theorem Instr.read_or_numberless (i : Instr) :
    signednessOf i ≠ none ∨ (∃ w, i = .wr4 w) ∨ i = .decrypt ∨ (∃ p, i = .setpos p) ∨ (∃ n, i = .setlen n) ∨
      i = .clrkey ∨ ∃ ki w, i = .setkey ki w := by
  cases i <;> simp [signednessOf]

/-- A read command is a read at the cursor or a smart read (R140, R171); of the state, only `cfg` bears on the pattern it returns. -/
theorem exec_read_form {i : Instr} (h : signednessOf i ≠ none) :
    (∃ (n : Nat) (p : Config → Nat → DWord), 0 < n ∧ ∀ s, exec i s = readAtPos i n (p s.cfg) s) ∨
      ∃ f g, ∀ s, exec i s = readSmart i f g s := by
  cases i with
  | rd1u | rd2u | rd3u | rd4u => exact .inl ⟨_, fun _ => zext64, Nat.succ_pos _, fun _ => rfl⟩
  | rd1s => exact .inl ⟨1, fun _ v => sext64 (signConvert 8 v), by decide, fun _ => rfl⟩
  | rd2s => exact .inl ⟨2, fun _ v => sext64 (signConvert 16 v), by decide, fun _ => rfl⟩
  | rd4s => exact .inl ⟨4, fun _ v => sext64 (signConvert 32 v), by decide, fun _ => rfl⟩
  | rd8u => exact .inl ⟨8, fun _ => zext64, by decide, execRd8u_eq⟩
  | rdbool => exact .inl ⟨1, fun c b => zext64 (boolNumber c b), by decide, fun _ => rfl⟩
  | smartu | smarts | smart4m | smart4u => exact .inr ⟨_, _, fun _ => rfl⟩
  | wr4 | decrypt | setpos | setlen | clrkey | setkey => exact absurd rfl h

/-- With fewer than four bytes available, WR4 raises E_BOUNDS (R139). -/
theorem exec_wr4_out {w : Word} {s : State} (h : ¬ inBounds s s.pos.toNat 4) :
    exec (.wr4 w) s = raiseBounds (.wr4 w) s := if_neg h

/-- In bounds, WR4 stores its word at the cursor and moves past it (R139). -/
theorem exec_wr4_ok {w : Word} {s : State} (h : inBounds s s.pos.toNat 4) :
    exec (.wr4 w) s =
      .next (complete (advancePos { s with buf := memWrite s.buf s.pos.toNat 4 w.toNat } 4)) := if_pos h

/-- SETPOS beyond LENGTH raises E_ARG (R210). -/
theorem exec_setpos_out {p : Word} {s : State} (h : s.length.toNat < p.toNat) :
    exec (.setpos p) s = raiseArg (.setpos p) s := if_pos h

theorem exec_setpos_ok {p : Word} {s : State} (h : p.toNat ≤ s.length.toNat) :
    exec (.setpos p) s = .next (complete { s with pos := p }) := if_neg (Nat.not_lt.2 h)

/-- SETLEN beyond BUF_CAP raises E_ARG (R211). -/
theorem exec_setlen_out {n : Word} {s : State} (h : s.cfg.bufCap < n.toNat) :
    exec (.setlen n) s = raiseArg (.setlen n) s := if_pos h

theorem exec_setlen_ok {n : Word} {s : State} (h : n.toNat ≤ s.cfg.bufCap) :
    exec (.setlen n) s = .next (complete { s with length := n, pos := 0 }) := if_neg (Nat.not_lt.2 h)

/-! ## Everything a command can do -/

/-- What a command can answer from `s` (`exec_outcome` ties it to `exec`): a completion of its own kind, an error response, or
UNINIT at a byte below LENGTH that holds no value. -/
inductive CommandOutcome (s : State) : Instr → Result → Prop
  | read {i : Instr} {n v : Nat} (r : DWord) (hi : signednessOf i ≠ none) (hin : inBounds s s.pos.toNat n)
      (hv : memRead s.buf s.pos.toNat n = .ok v) :
      CommandOutcome s i (.next (complete (advancePos (writeResult s r) n)))
  | wr4 (w : Word) (hin : inBounds s s.pos.toNat 4) :
      CommandOutcome s (.wr4 w)
        (.next (complete (advancePos { s with buf := memWrite s.buf s.pos.toNat 4 w.toNat } 4)))
  | decrypt {m : Memory} (hm : decryptBlocks s.key (nblocks s.length.toNat) 5 s.buf = .ok m) :
      CommandOutcome s .decrypt (.next (complete { s with buf := m }))
  | setpos (p : Word) (hp : p.toNat ≤ s.length.toNat) :
      CommandOutcome s (.setpos p) (.next (complete { s with pos := p }))
  | setlen (n : Word) (hn : n.toNat ≤ s.cfg.bufCap) :
      CommandOutcome s (.setlen n) (.next (complete { s with length := n, pos := 0 }))
  | clrkey : CommandOutcome s .clrkey (.next (complete { s with key := Key.zero }))
  | setkey (ki : BitVec 2) (w : Word) :
      CommandOutcome s (.setkey ki w) (.next (complete { s with key := s.key.set ki w }))
  | error (i : Instr) (c : StatusCode) (hc : c = .eBounds ∨ c = .eArg) :
      CommandOutcome s i (.next { respond c s with log := .errorResponse i c :: s.log })
  | uninit (i : Instr) {a : Nat} (hlt : a < s.length.toNat) (ha : s.buf.read a = none) :
      CommandOutcome s i (.fault (.uninit i a (.uninit i a :: s.log)))

theorem raiseBounds_outcome (i : Instr) (s : State) : CommandOutcome s i (raiseBounds i s) :=
  .error i .eBounds (.inl rfl)

theorem raiseArg_outcome (i : Instr) (s : State) : CommandOutcome s i (raiseArg i s) := .error i .eArg (.inr rfl)

theorem readAtPos_outcome {i : Instr} (hi : signednessOf i ≠ none) (n : Nat) (p : Nat → DWord) (s : State) :
    CommandOutcome s i (readAtPos i n p s) := by
  obtain ⟨-, e⟩ | ⟨v, hin, hv, e⟩ | ⟨a, hin, ha, e⟩ := readAtPos_cases i n p s <;> rw [e]
  · exact raiseBounds_outcome i s
  · exact .read _ hi hin hv
  · obtain ⟨hnone, -, hlt⟩ := memRead_error ha
    exact .uninit i (Nat.lt_of_lt_of_le hlt hin) hnone

theorem readSmart_outcome {i : Instr} (hi : signednessOf i ≠ none) (f g : Nat × (Nat → DWord)) (s : State) :
    CommandOutcome s i (readSmart i f g s) := by
  obtain ⟨-, e⟩ | ⟨hin, hnone, e⟩ | ⟨b0, -, -, e⟩ := readSmart_cases i f g s <;> rw [e]
  · exact raiseBounds_outcome i s
  · exact .uninit i hin hnone
  · split
    · exact readAtPos_outcome hi _ _ s
    · exact readAtPos_outcome hi _ _ s

theorem execDecrypt_outcome (s : State) : CommandOutcome s .decrypt (execDecrypt s) := by
  obtain ⟨m, hm, e⟩ | ⟨a, ha, e⟩ := execDecrypt_cases s <;> rw [e]
  · exact .decrypt hm
  · obtain ⟨h5, hlt, hnone⟩ := decryptBlocks_error ha
    have hblocks := nblocks_le s.length.toNat (by omega)
    exact .uninit .decrypt (by omega) hnone

/-- Every command answers one of the outcomes listed. -/
theorem exec_outcome (i : Instr) (s : State) : CommandOutcome s i (exec i s) := by
  obtain hi | ⟨w, rfl⟩ | rfl | ⟨p, rfl⟩ | ⟨n, rfl⟩ | rfl | ⟨ki, w, rfl⟩ := Instr.read_or_numberless i
  · obtain ⟨n, p, -, e⟩ | ⟨f, g, e⟩ := exec_read_form hi <;> rw [e]
    · exact readAtPos_outcome hi n _ s
    · exact readSmart_outcome hi f g s
  · by_cases h : inBounds s s.pos.toNat 4
    · rw [exec_wr4_ok h]; exact .wr4 w h
    · rw [exec_wr4_out h]; exact raiseBounds_outcome _ s
  · exact execDecrypt_outcome s
  · rcases Nat.lt_or_ge s.length.toNat p.toNat with h | h
    · rw [exec_setpos_out h]; exact raiseArg_outcome _ s
    · rw [exec_setpos_ok h]; exact .setpos p h
  · rcases Nat.lt_or_ge s.cfg.bufCap n.toNat with h | h
    · rw [exec_setlen_out h]; exact raiseArg_outcome _ s
    · rw [exec_setlen_ok h]; exact .setlen n h
  · exact .clrkey
  · exact .setkey ki w

/-- `exec_outcome` for a command that answers a known result. -/
theorem outcome_of_exec {i : Instr} {s : State} {r : Result} (h : exec i s = r) : CommandOutcome s i r :=
  h ▸ exec_outcome i s

/-! ## RESULT -/

/-- Settles O34: among the outcomes of a command only the completed read writes RESULT, and it answers OK. -/
theorem onlyCompletedReadsWriteResult : Obligations.OnlyCompletedReadsWriteResult := by
  unfold Obligations.OnlyCompletedReadsWriteResult
  intro i s t ht hno
  cases outcome_of_exec ht with
  | read r hi => exact hno.elim (absurd · hi) (absurd rfl)
  | wr4 | decrypt | setpos | setlen | clrkey | setkey | error => exact ⟨rfl, rfl⟩

/-! ## KEY -/

/-- The result with `f` applied to its next state. -/
def mapNext (f : State → State) : Result → Result
  | .next t => .next (f t)
  | .fault x => .fault x
  | .refused x => .refused x

theorem readAtPos_withKey (i : Instr) (n : Nat) (p : Nat → DWord) (s : State) (k : Key) :
    readAtPos i n p { s with key := k } = mapNext (fun t => { t with key := k }) (readAtPos i n p s) := by
  obtain ⟨hin, e⟩ | ⟨v, hin, hv, e⟩ | ⟨a, hin, ha, e⟩ := readAtPos_cases i n p s <;> rw [e]
  · exact readAtPos_out hin
  · exact readAtPos_ok hin hv
  · exact readAtPos_uninit hin ha

theorem readSmart_withKey (i : Instr) (f g : Nat × (Nat → DWord)) (s : State) (k : Key) :
    readSmart i f g { s with key := k } = mapNext (fun t => { t with key := k }) (readSmart i f g s) := by
  obtain ⟨hin, e⟩ | ⟨hin, hnone, e⟩ | ⟨b0, hin, hb, e⟩ := readSmart_cases i f g s
  · rw [e]; exact readSmart_out hin
  · rw [e]; simp only [readSmart, if_pos hin, memRead_of_first_unwritten hnone 0]; rfl
  · rw [e, readSmart_peek (s := { s with key := k }) hin hb]
    split <;> exact readAtPos_withKey i _ _ s k

/-- A command other than DECRYPT answers the same whatever KEY holds; only SETKEY and CLRKEY give KEY another value (R35). -/
theorem exec_withKey {i : Instr} (hi : i ≠ .decrypt) (s : State) (k : Key) :
    ∃ k', exec i { s with key := k } = mapNext (fun t => { t with key := k' }) (exec i s) ∧
      ((∀ ki w, i ≠ .setkey ki w) → i ≠ .clrkey → k' = k) := by
  obtain hr | ⟨w, rfl⟩ | rfl | ⟨p, rfl⟩ | ⟨n, rfl⟩ | rfl | ⟨ki, w, rfl⟩ := Instr.read_or_numberless i
  · refine ⟨k, ?_, fun _ _ => rfl⟩
    obtain ⟨n, p, -, e⟩ | ⟨f, g, e⟩ := exec_read_form hr <;> rw [e, e]
    · exact readAtPos_withKey i n _ s k
    · exact readSmart_withKey i f g s k
  · refine ⟨k, ?_, fun _ _ => rfl⟩
    by_cases h : inBounds s s.pos.toNat 4
    · rw [exec_wr4_ok h]; exact exec_wr4_ok h
    · rw [exec_wr4_out h]; exact exec_wr4_out h
  · exact absurd rfl hi
  · refine ⟨k, ?_, fun _ _ => rfl⟩
    rcases Nat.lt_or_ge s.length.toNat p.toNat with h | h
    · rw [exec_setpos_out h]; exact exec_setpos_out h
    · rw [exec_setpos_ok h]; exact exec_setpos_ok h
  · refine ⟨k, ?_, fun _ _ => rfl⟩
    rcases Nat.lt_or_ge s.cfg.bufCap n.toNat with h | h
    · rw [exec_setlen_out h]; exact exec_setlen_out h
    · rw [exec_setlen_ok h]; exact exec_setlen_ok h
  · exact ⟨Key.zero, rfl, fun _ h => absurd rfl h⟩
  · exact ⟨k.set ki w, rfl, fun h _ => absurd rfl (h ki w)⟩

/-- A command other than SETKEY and CLRKEY leaves KEY as it was (R35). -/
theorem exec_keeps_key {i : Instr} {s t : State} (ht : exec i s = .next t) (hset : ∀ ki w, i ≠ .setkey ki w)
    (hclr : i ≠ .clrkey) : t.key = s.key := by
  cases outcome_of_exec ht with
  | clrkey => exact absurd rfl hclr
  | setkey ki w => exact absurd rfl (hset ki w)
  | read | wr4 | decrypt | setpos | setlen | error => rfl

/-- Settles O54: the run with another KEY is the run with KEY replaced in its next state, and no output port reads KEY. -/
theorem keyIsReadByDecryptOnly : Obligations.KeyIsReadByDecryptOnly := by
  unfold Obligations.KeyIsReadByDecryptOnly
  refine ⟨fun i s k hi => ?_, fun s k r => rfl⟩
  obtain ⟨k', e, hk'⟩ := exec_withKey hi s k
  refine ⟨fun t ht => ⟨k', ?_, fun hset hclr => ⟨exec_keeps_key ht hset hclr, hk' hset hclr⟩⟩, fun f hf => ?_⟩
  · rw [e, ht]; rfl
  · rw [e, hf]; rfl

end Sys2Proof.Machine
end

section
/-! The canonical form of BUF (`spec/10_state.md` rule R31): a canonical memory is the sorted list of what it reads. -/

namespace Sys2Proof.Machine

/-- In a canonical memory every entry is the one its address reads. -/
theorem Memory.read_of_mem {m : Memory} (hm : m.wf) {a : Nat} {b : Byte} (h : (a, b) ∈ m) : m.read a = some b := by
  induction m with
  | nil => cases h
  | cons x m ih =>
    obtain ⟨k, c⟩ := x
    obtain ⟨hbelow, hwf⟩ := List.pairwise_cons.1 hm
    rcases List.mem_cons.1 h with h | h
    · cases h; exact if_pos rfl
    · have hlt : k < a := hbelow _ h
      rw [Memory.read, if_neg hlt.ne]
      exact ih hwf h

theorem Memory.mem_iff_read {m : Memory} (hm : m.wf) (x : Host.Cell) : x ∈ m ↔ m.read x.1 = some x.2 :=
  ⟨Memory.read_of_mem hm, Memory.mem_of_read⟩

/-- Canonical memories that read alike have the same entries in the same order. -/
theorem Memory.ext_of_wf {m m' : Memory} (hm : m.wf) (hm' : m'.wf) (h : ∀ a, m.read a = m'.read a) : m = m' := by
  have : Std.Irrefl fun x y : Host.Cell => x.1 < y.1 := ⟨fun x => Nat.lt_irrefl x.1⟩
  have : Std.Antisymm fun x y : Host.Cell => x.1 < y.1 := ⟨fun _ _ h₁ h₂ => absurd h₁ h₂.asymm⟩
  exact hm.eq_of_mem_iff hm' fun x => by rw [mem_iff_read hm, mem_iff_read hm', h]

/-- Settles O55: canonical memories are the sorted lists of what they read; the write laws are those of `Laws/Memory.lean`. -/
theorem canonicalMemoriesAreExtensional : Obligations.CanonicalMemoriesAreExtensional := by
  unfold Obligations.CanonicalMemoriesAreExtensional
  exact ⟨fun _ _ => Memory.ext_of_wf, fun m a b hm => ⟨Memory.wf_write hm a b, fun x => Memory.read_write m a x b⟩⟩

end Sys2Proof.Machine
end

section
/-! One step on each kind of sample, and the ports. -/

namespace Sys2Proof.Machine

/-! ## The step by its sample -/

theorem step_of_rst {s : State} (hr : (sample s).rst = true) : step s = .next (applyReset s) := if_pos hr

theorem step_of_busy {s : State} (hr : (sample s).rst = false) (hp : s.phase = .busy) :
    step s = busyCycle (sample s) s := by
  simp [step, cycle, hr, hp]

theorem step_of_command {s : State} (hr : (sample s).rst = false) (hp : s.phase = .idle)
    (hc : (sample s).cmdValid = true) (he : (sample s).hbEn = false) :
    step s = runCommand (sample s).command (accept s) := by
  simp [step, cycle, hr, hp, hc, he]

theorem step_of_hostAccess {s : State} (hr : (sample s).rst = false) (hp : s.phase = .idle)
    (hc : (sample s).cmdValid = false) (he : (sample s).hbEn = true) :
    step s = hostAccess (sample s) (tick s) := by
  simp [step, cycle, hr, hp, hc, he]

theorem step_of_breach {s : State} (hr : (sample s).rst = false) (hp : s.phase = .idle)
    (hc : (sample s).cmdValid = true) (he : (sample s).hbEn = true) :
    step s = .refused .hostPortInAcceptingCycle := by
  simp [step, cycle, hr, hp, hc, he]

theorem step_of_quiet {s : State} (hr : (sample s).rst = false) (hp : s.phase = .idle)
    (hc : (sample s).cmdValid = false) (he : (sample s).hbEn = false) : step s = .next (tick s) := by
  simp [step, cycle, hr, hp, hc, he]

theorem sample_of_cons {s : State} {x : Inputs} {xs : List Inputs} (h : s.inputs = x :: xs) : sample s = x := by
  rw [sample, h]; rfl

theorem sample_of_nil {s : State} (h : s.inputs = []) : sample s = Inputs.quiet := by
  rw [sample, h]; rfl

theorem runCommand_of_legal {c : Command} {i : Instr} (h : decode c = .legal i) (s : State) :
    runCommand c s = exec i s := by
  rw [runCommand, h]

theorem runCommand_of_illegal {c : Command} {op : Byte} (h : decode c = .illegal op) (s : State) :
    runCommand c s = raiseIllegal op s := by
  rw [runCommand, h]

/-- Without host port use, a BUSY cycle passes and holds an offered command (R266). -/
theorem busyCycle_of_offer {x : Inputs} (s : State) (he : x.hbEn = false) (hc : x.cmdValid = true) :
    busyCycle x s = .next { tick s with inputs := s.inputs } := by
  simp [busyCycle, he, hc]

theorem busyCycle_of_quiet (s : State) : busyCycle Inputs.quiet s = .next (tick s) := rfl

/-- The state in which an accepted command runs, as the model and as the statements write it. -/
theorem accept_eq_whileBusy (s : State) : accept s = whileBusy s := rfl

/-! ## The statements about one cycle -/

/-- A step on a host that drives nothing is a tick, in either phase. -/
theorem step_of_nil {s : State} (h : s.inputs = []) : step s = .next (tick s) := by
  have hx := sample_of_nil h
  cases hp : s.phase with
  | idle => exact step_of_quiet (by rw [hx]; rfl) hp (by rw [hx]; rfl) (by rw [hx]; rfl)
  | busy => rw [step_of_busy (by rw [hx]; rfl) hp, hx, busyCycle_of_quiet]

/-- Settles O7: the step is a tick, which writes no architectural register. -/
theorem quietCycleKeepsArchitecture : Obligations.QuietCycleKeepsArchitecture := by
  unfold Obligations.QuietCycleKeepsArchitecture
  intro s h
  exact ⟨tick s, step_of_nil h, by simp [sameArchitecture], tick_phase s, tick_rspValid s, tick_log s, tick_cfg s⟩

/-- Settles O8: the BUSY cycle on an offered command is a tick that keeps the sample. -/
theorem busyHoldsOfferedCommand : Obligations.BusyHoldsOfferedCommand := by
  unfold Obligations.BusyHoldsOfferedCommand
  intro s x xs hx hp hr hc he
  have hs := sample_of_cons hx
  refine ⟨{ tick s with inputs := s.inputs }, ?_, rfl, by simp [sameArchitecture], hp, rfl⟩
  rw [step_of_busy (hs ▸ hr) hp, hs, busyCycle_of_offer s he hc]

/-- Settles O14: the offered command is accepted, decoded and executed in the one step. -/
theorem stepRunsDecodedCommand : Obligations.StepRunsDecodedCommand := by
  unfold Obligations.StepRunsDecodedCommand
  intro s x xs i hx hp hr hc he hd
  obtain rfl := sample_of_cons hx
  rw [step_of_command hr hp hc he, runCommand_of_legal (c := (sample s).command) hd, accept_eq_whileBusy]

/-- Settles O3: each output is its register, and `cmd_ready` tests PHASE. -/
theorem outputPortsCopyRegisters : Obligations.OutputPortsCopyRegisters := by
  unfold Obligations.OutputPortsCopyRegisters
  intro s
  exact ⟨rfl, rfl, rfl, fun hv => if_pos hv, by simp [outputs]⟩

/-! ## After reset -/

/-- Raising E_BOUNDS, as the statements write the state after it (R231). -/
theorem raiseBounds_eq_afterBounds (i : Instr) (s : State) : raiseBounds i s = .next (afterBounds i s) := rfl

/-- With no byte between POS and LENGTH, every read command and WR4 raises E_BOUNDS (R34). -/
theorem exec_raises_bounds_of_none_available {i : Instr} {s : State} (hi : signednessOf i ≠ none ∨ ∃ w, i = .wr4 w)
    (h : s.length.toNat ≤ s.pos.toNat) : exec i s = .next (afterBounds i s) := by
  have hout : ∀ n, 0 < n → ¬ inBounds s s.pos.toNat n := fun n hn hin => by unfold inBounds at hin; omega
  rw [← raiseBounds_eq_afterBounds]
  obtain hr | ⟨w, rfl⟩ := hi
  · obtain ⟨n, p, hn, e⟩ | ⟨f, g, e⟩ := exec_read_form hr <;> rw [e]
    · exact readAtPos_out (hout n hn)
    · exact readSmart_out (hout 1 Nat.one_pos)
  · exact exec_wr4_out (hout 4 (by decide))

/-- Settles O1: the fields as `State.resetWith` gives them, and no byte available because LENGTH = 0. -/
theorem resetStateIsAsSpecified : Obligations.ResetStateIsAsSpecified := by
  unfold Obligations.ResetStateIsAsSpecified
  refine ⟨fun c => ⟨rfl, Memory.read_nil, rfl, rfl, Key.get_zero, rfl, codeField_statusOf .none,
    reservedField_statusOf .none, rfl, rfl, rfl, fun i hi => ?_⟩, Config.reference, by decide, rfl⟩
  exact exec_raises_bounds_of_none_available hi (Nat.le_refl _)

end Sys2Proof.Machine
end

section
/-! The invariant (`Safety.lean`) holds after reset and every step keeps it. Its part about `cfg`, BUF, LENGTH and POS holds while a
command runs too; a response then puts STATUS and PHASE right. -/

namespace Sys2Proof

open Sys2Proof.Machine

/-- The part of `Inv` that STATUS and PHASE have no part in. -/
structure BufferInv (s : State) : Prop where
  cfg : s.cfg.wf
  length_le : s.length.toNat ≤ s.cfg.bufCap
  pos_le : s.pos.toNat ≤ s.length.toNat
  buf_wf : s.buf.wf
  buf_below : ∀ a b, s.buf.read a = some b → a < s.cfg.bufCap

theorem Inv.bufferInv {s : State} (h : Inv s) : BufferInv s :=
  ⟨h.cfg, h.length_le, h.pos_le, h.buf_wf, h.buf_below⟩

/-- A produced STATUS and PHASE = IDLE complete the invariant. -/
theorem BufferInv.inv {s : State} (h : BufferInv s) {c : StatusCode} (hst : s.status = statusOf c)
    (hp : s.phase = .idle) : Inv s where
  cfg := h.cfg
  length_le := h.length_le
  pos_le := h.pos_le
  buf_wf := h.buf_wf
  buf_below := h.buf_below
  reserved_zero := by rw [hst, reservedField_statusOf]
  code_legal := by rw [hst, codeField_statusOf]; exact legalCode_bits c
  idle := hp

/-- `BufferInv` speaks of `cfg`, BUF, LENGTH and POS only. -/
theorem BufferInv.congr {s t : State} (h : BufferInv s) (hcfg : t.cfg = s.cfg) (hbuf : t.buf = s.buf)
    (hlen : t.length = s.length) (hpos : t.pos = s.pos) : BufferInv t := by
  obtain ⟨h1, h2, h3, h4, h5⟩ := h
  constructor <;> simpa only [hcfg, hbuf, hlen, hpos]

/-- Where STATUS and PHASE are as they were, `BufferInv` is all that is to show. -/
theorem Inv.of_bufferInv {s t : State} (h : Inv s) (hb : BufferInv t) (hst : t.status = s.status) (hp : t.phase = s.phase) :
    Inv t where
  cfg := hb.cfg
  length_le := hb.length_le
  pos_le := hb.pos_le
  buf_wf := hb.buf_wf
  buf_below := hb.buf_below
  reserved_zero := hst ▸ h.reserved_zero
  code_legal := hst ▸ h.code_legal
  idle := hp ▸ h.idle

/-! ## The updates -/

theorem BufferInv.advancePos {s : State} (h : BufferInv s) {n : Nat} (hin : inBounds s s.pos.toNat n) :
    BufferInv (advancePos s n) where
  cfg := h.cfg
  length_le := h.length_le
  pos_le := by
    rw [advancePos_pos, advancePos_length, BitVec.toNat_ofNat]
    exact (Nat.mod_le _ _).trans hin
  buf_wf := h.buf_wf
  buf_below := h.buf_below

/-- A new BUF that is canonical and differs below LENGTH only. -/
theorem BufferInv.withBuf {s : State} (h : BufferInv s) {m : Memory} (hm : m.wf)
    (hsame : ∀ x, s.length.toNat ≤ x → m.read x = s.buf.read x) : BufferInv { s with buf := m } where
  cfg := h.cfg
  length_le := h.length_le
  pos_le := h.pos_le
  buf_wf := hm
  buf_below a b hab := by
    rcases Nat.lt_or_ge a s.length.toNat with hlt | hge
    · exact Nat.lt_of_lt_of_le hlt h.length_le
    · exact h.buf_below a b (hsame a hge ▸ hab)

theorem BufferInv.accept {s : State} (h : BufferInv s) : BufferInv (accept s) := h.congr rfl rfl rfl rfl

theorem BufferInv.writeResult {s : State} (h : BufferInv s) (r : DWord) : BufferInv (writeResult s r) :=
  h.congr rfl rfl rfl rfl

theorem BufferInv.withKey {s : State} (h : BufferInv s) (k : Key) : BufferInv { s with key := k } :=
  h.congr rfl rfl rfl rfl

theorem BufferInv.withPos {s : State} (h : BufferInv s) {p : Word} (hp : p.toNat ≤ s.length.toNat) :
    BufferInv { s with pos := p } :=
  ⟨h.cfg, h.length_le, hp, h.buf_wf, h.buf_below⟩

theorem BufferInv.withLength {s : State} (h : BufferInv s) {n : Word} (hn : n.toNat ≤ s.cfg.bufCap) :
    BufferInv { s with length := n, pos := 0 } :=
  ⟨h.cfg, hn, Nat.zero_le _, h.buf_wf, h.buf_below⟩

/-- A host write below BUF_CAP (R221). -/
theorem BufferInv.hostWrite {s : State} (h : BufferInv s) {a : Nat} (ha : a < s.cfg.bufCap) (b : Byte) :
    BufferInv { s with buf := s.buf.write a b } where
  cfg := h.cfg
  length_le := h.length_le
  pos_le := h.pos_le
  buf_wf := Memory.wf_write h.buf_wf a b
  buf_below x c hx := by
    by_cases hxa : x = a
    · exact hxa ▸ ha
    · exact h.buf_below x c (Memory.read_write_ne s.buf b hxa ▸ hx)

/-- DECRYPT writes below LENGTH only, because its blocks lie there (R193). -/
theorem BufferInv.decrypted {s : State} (h : BufferInv s) {m : Memory}
    (hm : decryptBlocks s.key (nblocks s.length.toNat) 5 s.buf = .ok m) : BufferInv { s with buf := m } := by
  refine h.withBuf (decryptBlocks_wf h.buf_wf hm) fun x hx => decryptBlocks_outside hm ?_
  have hblocks := nblocks_le s.length.toNat
  omega

/-- WR4 writes below LENGTH only, because its four bytes are in bounds (R139). -/
theorem BufferInv.stored {s : State} (h : BufferInv s) (w : Word) (hin : inBounds s s.pos.toNat 4) :
    BufferInv { s with buf := memWrite s.buf s.pos.toNat 4 w.toNat } :=
  h.withBuf (memWrite_wf h.buf_wf _ _ _) fun _ hx => memWrite_read_outside s.buf (.inr (hin.trans hx))

/-! ## Reset, commands, host accesses -/

theorem bufferInv_resetWith {c : Config} (hc : c.wf) : BufferInv (State.resetWith c) where
  cfg := hc
  length_le := Nat.zero_le _
  pos_le := Nat.le_refl _
  buf_wf := List.Pairwise.nil
  buf_below _ _ h := nomatch h

theorem inv_resetWith {c : Config} (hc : c.wf) : Inv (State.resetWith c) :=
  (bufferInv_resetWith hc).inv (c := .none) rfl rfl

/-- A reset cycle gives the invariant from any state with legal parameters (R260). -/
theorem inv_applyReset {s : State} (hc : s.cfg.wf) : Inv (applyReset s) :=
  BufferInv.inv ((bufferInv_resetWith hc).congr rfl rfl rfl rfl) (applyReset_status s) rfl

/-- A response to a command that kept `BufferInv` gives the invariant, whatever entry the log took. -/
theorem BufferInv.inv_respond {s : State} (h : BufferInv s) (c : StatusCode) (l : List LogEntry) :
    Inv { respond c s with log := l } :=
  BufferInv.inv (c := c) (h.congr rfl rfl rfl rfl) rfl rfl

theorem BufferInv.inv_complete {s : State} (h : BufferInv s) : Inv (complete s) := h.inv_respond .ok s.log

/-- Every command that answers gives the invariant, from the state in which it runs. -/
theorem inv_of_exec {i : Instr} {s t : State} (h : BufferInv s) (ht : exec i s = .next t) : Inv t := by
  cases outcome_of_exec ht with
  | read r hi hin hv => exact ((h.writeResult r).advancePos hin).inv_complete
  | wr4 w hin => exact ((h.stored w hin).advancePos hin).inv_complete
  | decrypt hm => exact (h.decrypted hm).inv_complete
  | setpos p hp => exact (h.withPos hp).inv_complete
  | setlen n hn => exact (h.withLength hn).inv_complete
  | clrkey => exact (h.withKey _).inv_complete
  | setkey ki w => exact (h.withKey _).inv_complete
  | error i c hc => exact h.inv_respond c _

theorem inv_of_runCommand {c : Command} {s t : State} (h : BufferInv s) (ht : runCommand c s = .next t) : Inv t := by
  cases hd : decode c with
  | legal i => rw [runCommand_of_legal hd] at ht; exact inv_of_exec h ht
  | illegal op =>
    rw [runCommand_of_illegal hd] at ht
    cases ht
    exact h.inv_respond .eIllegal _

/-- A host port access that the model does not refuse keeps the invariant (R220 to R222). -/
theorem Inv.hostAccess {x : Inputs} {s t : State} (h : Inv s) (ht : hostAccess x s = .next t) : Inv t := by
  unfold Machine.hostAccess at ht
  split at ht
  case isFalse => cases ht
  case isTrue ha =>
    split at ht <;> cases ht
    · exact h.of_bufferInv (h.bufferInv.hostWrite ha _) rfl rfl
    · exact h.of_bufferInv (h.bufferInv.congr rfl rfl rfl rfl) rfl rfl

theorem Inv.tick {s : State} (h : Inv s) : Inv (tick s) := h.of_bufferInv (h.bufferInv.congr rfl rfl rfl rfl) rfl rfl

/-- Settles O57: by the kind of sample, the step is a reset, a command, a refusal, a host access or a quiet cycle. -/
theorem everyStepKeepsInvariant : Obligations.EveryStepKeepsInvariant := by
  unfold Obligations.EveryStepKeepsInvariant
  intro s t h ht
  cases hr : (sample s).rst with
  | true =>
    rw [step_of_rst hr] at ht
    cases ht
    exact inv_applyReset h.cfg
  | false =>
    cases hc : (sample s).cmdValid <;> cases he : (sample s).hbEn
    · rw [step_of_quiet hr h.idle hc he] at ht
      cases ht
      exact h.tick
    · rw [step_of_hostAccess hr h.idle hc he] at ht
      exact h.tick.hostAccess ht
    · rw [step_of_command hr h.idle hc he] at ht
      exact inv_of_runCommand h.bufferInv.accept ht
    · rw [step_of_breach hr h.idle hc he] at ht
      cases ht

/-- Settles O56: BUF is empty and LENGTH and POS are 0; the parameters of `State.reset` are legal. -/
theorem resetSatisfiesInvariant : Obligations.ResetSatisfiesInvariant := by
  unfold Obligations.ResetSatisfiesInvariant
  exact ⟨fun _ => inv_resetWith, inv_resetWith (c := Config.reference) (by decide)⟩

end Sys2Proof
end

section
/-! What the commands leave unchanged in the state and in BUF (`spec/20_memory.md` rules R71, R72, R77, R78), and that a command
answers the same on two buffers that agree below LENGTH. -/

namespace Sys2Proof.Machine

/-! ## The frames of the commands that read and that store -/

/-- Settles O50: a command that returns a number completes as a read or answers an error, and neither touches anything else. -/
theorem readCommandFrame : Obligations.ReadCommandFrame := by
  unfold Obligations.ReadCommandFrame
  intro i s t hi ht
  cases outcome_of_exec ht with
  | read | error => exact ⟨rfl, fun _ => rfl⟩
  | wr4 | decrypt | setpos | setlen | clrkey | setkey => exact absurd rfl hi

/-- WR4 that answers stores at POS .. POS+3 only, and writes no register but POS and STATUS (R139). -/
theorem exec_wr4_frame {w : Word} {s t : State} (ht : exec (.wr4 w) s = .next t) :
    t = { s with
      buf := t.buf, pos := t.pos, status := t.status, phase := t.phase, rspValid := t.rspValid, log := t.log } ∧
    ∀ a, (a < s.pos.toNat ∨ s.pos.toNat + 4 ≤ a) → t.buf.read a = s.buf.read a := by
  cases outcome_of_exec ht with
  | wr4 => exact ⟨rfl, fun _ => memWrite_read_outside s.buf⟩
  | error => exact ⟨rfl, fun _ _ => rfl⟩
  | read r hi => exact absurd rfl hi

/-- DECRYPT that answers stores in its blocks only, and writes no register but STATUS (R193, R194). -/
theorem exec_decrypt_frame {s t : State} (ht : exec .decrypt s = .next t) :
    t = { s with buf := t.buf, status := t.status, phase := t.phase, rspValid := t.rspValid } ∧
    ∀ a, (a < 5 ∨ 5 + 8 * nblocks s.length.toNat ≤ a) → t.buf.read a = s.buf.read a := by
  rw [show exec .decrypt s = execDecrypt s from rfl] at ht
  obtain ⟨m, hm, e⟩ | ⟨a, -, e⟩ := execDecrypt_cases s <;> rw [e] at ht <;> cases ht
  exact ⟨rfl, fun _ => decryptBlocks_outside hm⟩

/-- Settles O51: WR4 stores four bytes at the cursor or none, and DECRYPT has no error response. -/
theorem storingCommandFrame : Obligations.StoringCommandFrame := by
  unfold Obligations.StoringCommandFrame
  exact fun s t => ⟨fun w => exec_wr4_frame, exec_decrypt_frame⟩

/-! ## Above LENGTH nothing is written -/

/-- No command changes a byte at or above LENGTH (R71): WR4 stores in bounds, and DECRYPT's blocks lie below LENGTH. -/
theorem exec_keeps_above_length {i : Instr} {s t : State} (ht : exec i s = .next t) {a : Nat}
    (ha : s.length.toNat ≤ a) : t.buf.read a = s.buf.read a := by
  cases outcome_of_exec ht with
  | wr4 w hin => exact memWrite_read_outside s.buf (.inr (hin.trans ha))
  | decrypt hm =>
    have hblocks := nblocks_le s.length.toNat
    exact decryptBlocks_outside hm (by omega)
  | read | setpos | setlen | clrkey | setkey | error => rfl

/-! ## Above LENGTH nothing is read -/

/-- `m'` reads as `m` does at every address below `l`. -/
def SameBelow (l : Nat) (m m' : Memory) : Prop := ∀ a, a < l → m'.read a = m.read a

/-- `MemRead` of a range below `l` sees no difference. -/
theorem SameBelow.memRead {l : Nat} {m m' : Memory} (h : SameBelow l m m') {a n : Nat} (hl : a + n ≤ l) :
    memRead m' a n = memRead m a n :=
  memRead_congr fun x _ hx => h x (Nat.lt_of_lt_of_le hx hl)

/-- The same `MemWrite` to both keeps two memories alike. -/
theorem SameBelow.memWrite {l : Nat} {m m' : Memory} (h : SameBelow l m m') (a n v : Nat) :
    SameBelow l (memWrite m a n v) (memWrite m' a n v) := by
  intro x hx
  induction n generalizing v with
  | zero => exact h x hx
  | succ n ih => rw [Machine.memWrite, Machine.memWrite, Memory.read_write, Memory.read_write, ih]

/-- The block loop over blocks below `l` stops at the same byte in both memories, or keeps them alike. -/
theorem decryptBlocks_sameBelow {K : Key} {l n a : Nat} {m m' : Memory} (h : SameBelow l m m')
    (hl : 0 < n → a + 8 * n ≤ l) :
    (∀ r, decryptBlocks K n a m = .ok r → ∃ r', decryptBlocks K n a m' = .ok r' ∧ SameBelow l r r') ∧
      ∀ x, decryptBlocks K n a m = .error x → decryptBlocks K n a m' = .error x := by
  induction n generalizing a m m' with
  | zero => exact ⟨fun r hr => ⟨m', rfl, by cases hr; exact h⟩, nofun⟩
  | succ n ih =>
    have hlast := hl n.succ_pos
    simp only [decryptBlocks, h.memRead (a := a) (n := 4) (by omega), h.memRead (a := a + 4) (n := 4) (by omega)]
    cases memRead m a 4 with
    | error x => exact ⟨nofun, fun _ hx => hx⟩
    | ok y =>
      cases memRead m (a + 4) 4 with
      | error x => exact ⟨nofun, fun _ hx => hx⟩
      | ok z => exact ih ((h.memWrite _ _ _).memWrite _ _ _) (by omega)

/-- The second result is the first but for the bytes of BUF at or above `l`; a fault is the same fault. -/
inductive SameResultBelow (l : Nat) : Result → Result → Prop
  | next (t : State) {m' : Memory} (h : SameBelow l t.buf m') : SameResultBelow l (.next t) (.next { t with buf := m' })
  | fault (f : Fault) : SameResultBelow l (.fault f) (.fault f)

theorem SameResultBelow.of_next {l : Nat} {t : State} {r' : Result} (h : SameResultBelow l (.next t) r') :
    ∃ m', r' = .next { t with buf := m' } ∧ SameBelow l t.buf m' := by
  cases h with
  | next t h => exact ⟨_, rfl, h⟩

theorem SameResultBelow.of_fault {l : Nat} {f : Fault} {r' : Result} (h : SameResultBelow l (.fault f) r') :
    r' = .fault f := by
  cases h with
  | fault => rfl

section
variable {s : State} {m : Memory} (h : SameBelow s.length.toNat s.buf m)
include h

theorem raiseBounds_sameBelow (i : Instr) :
    SameResultBelow s.length.toNat (raiseBounds i s) (raiseBounds i { s with buf := m }) := .next _ h

theorem raiseArg_sameBelow (i : Instr) :
    SameResultBelow s.length.toNat (raiseArg i s) (raiseArg i { s with buf := m }) := .next _ h

/-- The read at the cursor reads its bytes after the bounds test, so below LENGTH (R140). -/
theorem readAtPos_sameBelow (i : Instr) (n : Nat) (p : Nat → DWord) :
    SameResultBelow s.length.toNat (readAtPos i n p s) (readAtPos i n p { s with buf := m }) := by
  obtain ⟨hin, e⟩ | ⟨v, hin, hv, e⟩ | ⟨a, hin, ha, e⟩ := readAtPos_cases i n p s
  · rw [e, readAtPos_out (s := { s with buf := m }) hin]
    exact raiseBounds_sameBelow h i
  · rw [e, readAtPos_ok (s := { s with buf := m }) hin ((h.memRead hin).trans hv)]
    exact .next _ h
  · rw [e, readAtPos_uninit (s := { s with buf := m }) hin ((h.memRead hin).trans ha)]
    exact .fault _

/-- The peek of a smart command is below LENGTH too (R171). -/
theorem readSmart_sameBelow (i : Instr) (f g : Nat × (Nat → DWord)) :
    SameResultBelow s.length.toNat (readSmart i f g s) (readSmart i f g { s with buf := m }) := by
  obtain ⟨hin, e⟩ | ⟨hin, hnone, e⟩ | ⟨b0, hin, hb, e⟩ := readSmart_cases i f g s
  · rw [e, readSmart_out (s := { s with buf := m }) hin]
    exact raiseBounds_sameBelow h i
  · have hpeek : memRead m s.pos.toNat 1 = .error s.pos.toNat :=
      (h.memRead hin).trans (memRead_of_first_unwritten hnone 0)
    rw [e]
    simp only [readSmart, if_pos hin, hpeek]
    exact .fault _
  · rw [e, readSmart_peek (s := { s with buf := m }) hin ((h _ hin).trans hb)]
    split
    · exact readAtPos_sameBelow h i _ _
    · exact readAtPos_sameBelow h i _ _

/-- DECRYPT's blocks lie below LENGTH (R193). -/
theorem execDecrypt_sameBelow :
    SameResultBelow s.length.toNat (execDecrypt s) (execDecrypt { s with buf := m }) := by
  obtain ⟨hok, herr⟩ := decryptBlocks_sameBelow (K := s.key) h (nblocks_le s.length.toNat)
  obtain ⟨r, hr, e⟩ | ⟨a, ha, e⟩ := execDecrypt_cases s <;> rw [e]
  · obtain ⟨r', hr', hsame⟩ := hok r hr
    simp only [execDecrypt, hr']
    exact .next (complete { s with buf := r }) hsame
  · simp only [execDecrypt, herr a ha]
    exact .fault _

/-- Every command answers the same on two buffers that agree below LENGTH, and leaves them in agreement there (R71, R72). -/
theorem exec_sameBelow (i : Instr) : SameResultBelow s.length.toNat (exec i s) (exec i { s with buf := m }) := by
  obtain hi | ⟨w, rfl⟩ | rfl | ⟨p, rfl⟩ | ⟨n, rfl⟩ | rfl | ⟨ki, w, rfl⟩ := Instr.read_or_numberless i
  · obtain ⟨n, p, -, e⟩ | ⟨f, g, e⟩ := exec_read_form hi <;> rw [e, e]
    · exact readAtPos_sameBelow h i n _
    · exact readSmart_sameBelow h i f g
  · by_cases hin : inBounds s s.pos.toNat 4
    · rw [exec_wr4_ok hin, exec_wr4_ok (s := { s with buf := m }) hin]
      exact .next (complete (advancePos { s with buf := memWrite s.buf s.pos.toNat 4 w.toNat } 4)) (h.memWrite _ _ _)
    · rw [exec_wr4_out hin, exec_wr4_out (s := { s with buf := m }) hin]
      exact raiseBounds_sameBelow h _
  · exact execDecrypt_sameBelow h
  · rcases Nat.lt_or_ge s.length.toNat p.toNat with hp | hp
    · rw [exec_setpos_out hp, exec_setpos_out (s := { s with buf := m }) hp]
      exact raiseArg_sameBelow h _
    · rw [exec_setpos_ok hp, exec_setpos_ok (s := { s with buf := m }) hp]
      exact .next (complete { s with pos := p }) h
  · rcases Nat.lt_or_ge s.cfg.bufCap n.toNat with hn | hn
    · rw [exec_setlen_out hn, exec_setlen_out (s := { s with buf := m }) hn]
      exact raiseArg_sameBelow h _
    · rw [exec_setlen_ok hn, exec_setlen_ok (s := { s with buf := m }) hn]
      exact .next (complete { s with length := n, pos := 0 }) h
  · exact .next (complete { s with key := Key.zero }) h
  · exact .next (complete { s with key := s.key.set ki w }) h

end

/-- Settles O53: no outcome of a command writes above LENGTH, and on the other buffer it answers the same result. -/
theorem commandsStayBelowLength : Obligations.CommandsStayBelowLength := by
  unfold Obligations.CommandsStayBelowLength
  intro i s m h
  have hsame := exec_sameBelow h i
  refine ⟨fun t ht => ⟨fun a => exec_keeps_above_length ht, ?_⟩, fun f hf => ?_⟩
  · rw [ht] at hsame
    exact hsame.of_next
  · rw [hf] at hsame
    exact hsame.of_fault

end Sys2Proof.Machine
end

section
/-! The opcode map of `spec/30_encoding.md` rule R107, read once in each direction: `decode_of_encoded` from a command to its
pairs, `decode_cases` from a pair to its command. The statements about the encoding follow from the two. -/

namespace Sys2Proof

/-! ## Which command a pair decodes to -/

/-- The word of SETKEY is `0xC4 + KI` (R212). -/
theorem encodeOp_setkey (ki : BitVec 2) (w : Word) : encodeOp (.setkey ki w) = 0xC4 + ki.setWidth 8 := by
  show 0b110001#6 ++ ki = 0xC4 + ki.setWidth 8
  revert ki
  decide

theorem decode_setkey (ki : BitVec 2) (w : Word) : decode ⟨0xC4 + ki.setWidth 8, w⟩ = .legal (.setkey ki w) := by
  rcases Machine.keyIndex_cases ki with rfl | rfl | rfl | rfl <;> simp [decode]

/-- A pair with the command word of `i`, and its operand where it has one, decodes to `i` (R106, R107). -/
theorem decode_of_encoded {c : Command} {i : Instr} (hop : encodeOp i = c.op)
    (harg : i.takesNoOperand = false → encodeArg i = c.arg) : decode c = .legal i := by
  obtain ⟨op, arg⟩ := c
  obtain rfl : encodeOp i = op := hop
  cases i with
  | rd1u | rd1s | rd2u | rd2s | rd3u | rd4u | rd4s | rd8u | rdbool
  | smartu | smarts | smart4m | smart4u | decrypt | clrkey => rfl
  | wr4 | setpos | setlen =>
    obtain rfl := harg rfl
    rfl
  | setkey ki w =>
    obtain rfl := harg rfl
    rw [encodeOp_setkey]
    exact decode_setkey ki w

/-- The words `0xC4` to `0xC7` are those of SETKEY, with KI in bits 1:0 (R105). -/
theorem setkey_word_of_range : ∀ op : Byte, 0xC4 ≤ op.toNat → op.toNat ≤ 0xC7 →
    0b110001#6 ++ op.extractLsb' 0 2 = op := by
  decide

/-- What `decode` answers (R109): a command with the pair's word, and with its ARG where it has an operand, or ILLEGAL with the
word. The arms are taken by their operands: none, ARG, KI and ARG. -/
theorem decode_cases (c : Command) :
    (∃ i, decode c = .legal i ∧ encodeOp i = c.op ∧ (i.takesNoOperand = false → encodeArg i = c.arg)) ∨
      decode c = .illegal c.op := by
  unfold decode
  split
  case h_1 h | h_2 h | h_3 h | h_4 h | h_5 h | h_6 h | h_7 h | h_8 h | h_9 h | h_11 h | h_12 h | h_13 h
  | h_14 h | h_15 h | h_18 h =>
    exact .inl ⟨_, rfl, BitVec.eq_of_toNat_eq h.symm, nofun⟩
  case h_10 h | h_16 h | h_17 h => exact .inl ⟨_, rfl, BitVec.eq_of_toNat_eq h.symm, fun _ => rfl⟩
  case h_19 h | h_20 h | h_21 h | h_22 h =>
    exact .inl ⟨_, rfl, setkey_word_of_range _ (by omega) (by omega), fun _ => rfl⟩
  case h_23 => exact .inr rfl

/-- A pair decodes to `i` exactly when it has the word of `i`, and its operand where `i` has one. -/
theorem decode_eq_legal_iff {c : Command} {i : Instr} :
    decode c = .legal i ↔ encodeOp i = c.op ∧ (i.takesNoOperand = false → encodeArg i = c.arg) := by
  refine ⟨fun h => ?_, fun ⟨hop, harg⟩ => decode_of_encoded hop harg⟩
  obtain ⟨j, hj, hop, harg⟩ | hill := decode_cases c
  · obtain rfl : j = i := by simpa [hj] using h
    exact ⟨hop, harg⟩
  · simp [hill] at h

theorem decode_encode (i : Instr) : decode (encode i) = .legal i := decode_of_encoded rfl fun _ => rfl

/-- The word of a command is legal with any ARG (R106, R109). -/
theorem exists_decode_encodeOp (i : Instr) (a : Word) : ∃ j, decode ⟨encodeOp i, a⟩ = .legal j := by
  cases i with
  | rd1u | rd1s | rd2u | rd2s | rd3u | rd4u | rd4s | rd8u | rdbool
  | smartu | smarts | smart4m | smart4u | decrypt | clrkey | wr4 | setpos | setlen => exact ⟨_, rfl⟩
  | setkey ki w => exact ⟨_, encodeOp_setkey ki w ▸ decode_setkey ki a⟩

/-- Whether a word is legal does not depend on ARG (R109). -/
theorem exists_decode_of_exists_decode {op : Byte} {a : Word} (a' : Word) (h : ∃ i, decode ⟨op, a⟩ = .legal i) :
    ∃ i, decode ⟨op, a'⟩ = .legal i := by
  obtain ⟨i, hi⟩ := h
  obtain ⟨rfl, -⟩ := decode_eq_legal_iff.1 hi
  exact exists_decode_encodeOp i a'

theorem decode_eq_illegal_iff {c : Command} : decode c = .illegal c.op ↔ ¬ ∃ i, decode c = .legal i := by
  obtain ⟨i, hi, -⟩ | hill := decode_cases c
  · simp [hi]
  · simp [hill]

/-! ## Formats and opcode map -/

/-- With ARG 0, the formats R102 to R105 refuse the words the opcode map leaves out, for each of the 256 words. -/
theorem decode_eq_illegal_iff_of_arg_zero :
    ∀ op : Byte, decode ⟨op, 0⟩ = .illegal op ↔ Command.wellFormed ⟨op, 0⟩ = false := by
  decide

/-- The formats allow a word exactly when it decodes to a command, whatever its ARG (R108, R109). -/
theorem decode_eq_illegal_iff_wellFormed (c : Command) : decode c = .illegal c.op ↔ c.wellFormed = false := by
  have harg : (∃ i, decode c = .legal i) ↔ ∃ i, decode ⟨c.op, 0⟩ = .legal i :=
    ⟨exists_decode_of_exists_decode 0, exists_decode_of_exists_decode c.arg⟩
  calc decode c = .illegal c.op
    _ ↔ decode ⟨c.op, 0⟩ = .illegal c.op := by rw [decode_eq_illegal_iff, harg, ← decode_eq_illegal_iff]
    _ ↔ c.wellFormed = false := decode_eq_illegal_iff_of_arg_zero c.op

/-- A word that decodes to a command is well-formed (R108). -/
theorem wellFormed_of_legal {c : Command} {i : Instr} (h : decode c = .legal i) : c.wellFormed = true := by
  have hlegal : ¬ decode c = .illegal c.op := by simp [h]
  simpa [decode_eq_illegal_iff_wellFormed] using hlegal

/-- The word `w` is one that its format does not allow (R108). -/
def reservedWord (w : Nat) : Bool := !(Command.mk (BitVec.ofNat 8 w) 0).wellFormed

/-- Counting in two ranges, one after the other. -/
theorem length_filter_range_add (p : Nat → Bool) (m n : Nat) :
    ((List.range (m + n)).filter p).length =
      ((List.range m).filter p).length + ((List.range n).filter fun k => p (m + k)).length := by
  rw [List.range_add, List.filter_append, List.length_append, List.filter_map, List.length_map]
  rfl

/-- Of the 64 words of a group (R101), format R reserves 55, format V 60, format M 62 and format C 57. -/
theorem reservedWord_count_by_group :
    ((List.range 64).filter reservedWord).length = 55 ∧
    ((List.range 64).filter fun k => reservedWord (64 + k)).length = 60 ∧
    ((List.range 64).filter fun k => reservedWord (128 + k)).length = 62 ∧
    ((List.range 64).filter fun k => reservedWord (192 + k)).length = 57 := by
  decide

theorem reservedWord_count : ((List.range 256).filter reservedWord).length = 234 := by
  obtain ⟨hR, hV, hM, hC⟩ := reservedWord_count_by_group
  rw [length_filter_range_add _ 192 64, length_filter_range_add _ 128 64, length_filter_range_add _ 64 64, hR, hV, hM, hC]

/-! ## The table word -/

/-- A command's 40 bits, read back from their one number (R100, assumption 3). -/
theorem commandOfTableWord_of_parts (c : Command) : commandOfTableWord 40 (c.op.toNat + 256 * c.arg.toNat) = c := by
  have hop : c.op.toNat < 256 := c.op.isLt
  have harg : c.arg.toNat < 2 ^ 32 := c.arg.isLt
  have hv : (c.op.toNat + 256 * c.arg.toNat) % 2 ^ 40 = c.op.toNat + 256 * c.arg.toNat := Nat.mod_eq_of_lt (by omega)
  have hlow : BitVec.ofNat 8 (c.op.toNat + 256 * c.arg.toNat) = c.op :=
    BitVec.eq_of_toNat_eq (by rw [BitVec.toNat_ofNat]; omega)
  have hhigh : (c.op.toNat + 256 * c.arg.toNat) / 256 = c.arg.toNat := by omega
  simp only [commandOfTableWord, hv, hlow, hhigh, BitVec.ofNat_toNat, BitVec.setWidth_eq]

theorem decodeTableWord_of_legal {c : Command} {i : Instr} (h : decode c = .legal i) :
    decodeTableWord 40 (c.op.toNat + 256 * c.arg.toNat) = some i := by
  rw [decodeTableWord, commandOfTableWord_of_parts, h]

/-! ## The statements -/

/-- Settles O10: the encoder's pair has the command's word and operand, so it decodes to the command and its format allows it. -/
theorem decodeOfEncodeIsIdentity : Obligations.DecodeOfEncodeIsIdentity := by
  unfold Obligations.DecodeOfEncodeIsIdentity
  intro i
  have hdec := decode_encode i
  exact ⟨hdec, wellFormed_of_legal hdec, decodeTableWord_of_legal hdec⟩

/-- Settles O11: a pair that decodes to a command has its word, and its ARG where it has an operand. -/
theorem encodeOfDecodeIsTheWord : Obligations.EncodeOfDecodeIsTheWord := by
  unfold Obligations.EncodeOfDecodeIsTheWord
  intro c i h
  obtain ⟨hop, harg⟩ := decode_eq_legal_iff.1 h
  exact ⟨hop, fun hi => by rw [encode, hop, harg hi]⟩

/-- Settles O9: each word names its arm of `decode`, the words of SETKEY by their key index. -/
theorem opcodeMapDecodes : Obligations.OpcodeMapDecodes := by
  unfold Obligations.OpcodeMapDecodes
  intro a
  exact ⟨rfl, rfl, rfl, rfl, rfl, rfl, rfl, rfl, rfl, rfl, rfl, rfl, rfl, rfl, rfl, rfl, rfl, rfl,
    decode_setkey 0 a, decode_setkey 1 a, decode_setkey 2 a, decode_setkey 3 a⟩

/-- Settles O12: the formats refuse what the opcode map leaves out, counted group by group. -/
theorem reservedWordsAreTheIllFormed : Obligations.ReservedWordsAreTheIllFormed := by
  unfold Obligations.ReservedWordsAreTheIllFormed
  exact ⟨decode_eq_illegal_iff_wellFormed, reservedWord_count⟩

/-- Settles O13: whether a word is legal, and the word of its command, do not depend on ARG. -/
theorem commandsWithoutOperandIgnoreArg : Obligations.CommandsWithoutOperandIgnoreArg := by
  unfold Obligations.CommandsWithoutOperandIgnoreArg
  intro op a a'
  refine ⟨⟨exists_decode_of_exists_decode a', exists_decode_of_exists_decode a⟩,
    fun i i' hi hi' => ?_, fun i hi hno => ?_⟩
  · obtain ⟨hop, -⟩ := decode_eq_legal_iff.1 hi
    obtain ⟨hop', -⟩ := decode_eq_legal_iff.1 hi'
    exact hop.trans hop'.symm
  · obtain ⟨hop, -⟩ := decode_eq_legal_iff.1 hi
    exact decode_of_encoded hop (by simp [hno])

end Sys2Proof
end

section
/-! The pseudo-instructions of `spec/30_encoding.md` rule R112: what the assembler makes of them, and what their commands do
when they run. -/

namespace Sys2Proof.Machine

/-! ## The assembler -/

/-- A well-formed line is taken as its expansion (R111). -/
theorem assembleLine_of_wellFormed {l : ScriptLine} (h : l.wellFormed = true) :
    assembleLine l = some (ScriptLine.expand l) := if_pos h

theorem unsignedOperand_of_lt {n : Nat} (h : n < 2 ^ 32) : unsignedOperand n = true := by
  simp only [unsignedOperand, decide_eq_true_eq]
  omega

/-- The writes of a LOAD, by their index (R112). -/
theorem loadWrites_eq_mapIdx (bs : List Byte) (a : Nat) :
    loadWrites a bs = bs.mapIdx fun k b => Inputs.hbw (BitVec.ofNat 32 (a + k)) b := by
  induction bs generalizing a with
  | nil => rfl
  | cons b bs ih => simp [loadWrites, ih, List.mapIdx_cons, Nat.add_right_comm, Nat.add_assoc]

/-- LOAD of bytes is the construction sequence of R223 (R112). -/
theorem assembleLine_load {bs : List Byte} (h : bs.length < 2 ^ 32) :
    assembleLine (.load (bs.map BitVec.toNat)) = some (loadSequence bs) := by
  have hwf : (ScriptLine.load (bs.map BitVec.toNat)).wellFormed = true := by
    have hbyte : ∀ b : Byte, b.toNat < 256 := fun b => b.isLt
    simp [ScriptLine.wellFormed, unsignedOperand_of_lt h, hbyte]
  have hbytes : (bs.map BitVec.toNat).map (BitVec.ofNat 8) = bs := by simp [Function.comp_def]
  rw [assembleLine_of_wellFormed hwf, ScriptLine.expand, hbytes]

theorem assembleLine_skip {n p : Nat} (h : p + n < 2 ^ 32) :
    assembleLine (.skip n (some p)) = some [driveInstr (.setpos (BitVec.ofNat 32 (p + n)))] :=
  assembleLine_of_wellFormed (unsignedOperand_of_lt h)

/-! ## Running the commands -/

/-- The step on an offered command, encoded as R111 says, is its meaning. -/
theorem step_of_driveInstr {s : State} {i : Instr} {xs : List Inputs} (hp : s.phase = .idle)
    (hx : s.inputs = driveInstr i :: xs) : step s = exec i (whileBusy s) :=
  stepRunsDecodedCommand s _ xs i hx hp rfl rfl rfl (decode_encode i)

/-- A run goes on from the state its first step answers, for any machine. -/
theorem coreRun_succ (M : Host.Core) {s t : M.State} (k : Nat) (h : M.step s = .next t) : M.run (k + 1) s = M.run k t := by
  rw [Host.Core.run, h]

theorem run_zero (s : State) : core.run 0 s = .next s := rfl

theorem run_succ {s t : State} (k : Nat) (h : step s = .next t) : core.run (k + 1) s = core.run k t :=
  coreRun_succ core k h

/-- REWIND, offered as `SETPOS 0`, never exceeds LENGTH (R112, R210). -/
theorem run_rewind {s : State} {xs : List Inputs} (hp : s.phase = .idle) (hx : s.inputs = driveInstr (.setpos 0) :: xs) :
    core.run 1 s = .next { afterOk s with pos := 0, inputs := xs, hbRdataValid := false, draws := s.draws + 1 } := by
  have hstep : step s = .next (complete { whileBusy s with pos := 0 }) :=
    (step_of_driveInstr hp hx).trans (exec_setpos_ok (Nat.zero_le _))
  rw [run_succ 0 hstep, run_zero]
  simp [complete_eq, whileBusy, afterOk, hx]

/-- SETKEY, offered as the first of several commands, writes its key word and leaves the machine ready for the next. -/
theorem run_setkey {s : State} {ki : BitVec 2} {w : Word} {xs : List Inputs} (k : Nat) (hp : s.phase = .idle)
    (hx : s.inputs = driveInstr (.setkey ki w) :: xs) :
    core.run (k + 1) s = core.run k { afterOk s with
      key := s.key.set ki w, inputs := xs, hbRdataValid := false, draws := s.draws + 1 } := by
  have hstep : step s = .next (complete { whileBusy s with key := s.key.set ki w }) := step_of_driveInstr hp hx
  rw [run_succ k hstep]
  simp [complete_eq, whileBusy, afterOk, hx]

/-- Settles O44: the assembler's lines are the expansions; REWIND runs as one SETPOS, which never exceeds LENGTH, and KEY as
four SETKEY commands, each on the state the one before left. -/
theorem rewindAndKeyPseudosRun : Obligations.RewindAndKeyPseudosRun := by
  unfold Obligations.RewindAndKeyPseudosRun
  refine ⟨rfl, fun _ _ _ _ => rfl, fun bs h => ⟨assembleLine_load h, ?_⟩, fun n p h => ⟨assembleLine_skip h, rfl⟩,
    fun s xs hp => ⟨fun hx => ?_, fun k0 k1 k2 k3 hx => ?_⟩⟩
  · simp [loadSequence, loadWrites_eq_mapIdx]
  · exact run_rewind hp hx
  · rw [run_setkey 3 hp hx, run_setkey 2 rfl rfl, run_setkey 1 rfl rfl, run_setkey 0 rfl rfl]
    rfl

end Sys2Proof.Machine
end

section
/-! The numbers of the read commands (`spec/00_scope.md` rules R10, R16): their patterns in RESULT, the number the host reads
from a pattern, and the bytes they are made of. -/

namespace Sys2Proof.Machine

/-! ## Patterns and the host's number -/

theorem zext64_toNat {w : Nat} (x : BitVec w) : zext64 x.toNat = x.setWidth 64 := BitVec.ofNat_toNat 64 x

/-- The source's sign conversion is the two's-complement reading (R131, R133, R136). -/
theorem signConvert_toNat {w : Nat} (x : BitVec w) : signConvert w x.toNat = x.toInt := by
  have htop := Nat.two_pow_pos (w - 1)
  have hiff : x.toNat > 2 ^ (w - 1) - 1 ↔ 2 ^ (w - 1) ≤ x.toNat := by omega
  simp [signConvert, hiff, BitVec.toInt_eq_msb_cond, BitVec.msb_eq_decide]

theorem sext64_signConvert_toNat {w : Nat} (x : BitVec w) : sext64 (signConvert w x.toNat) = x.signExtend 64 :=
  congrArg sext64 (signConvert_toNat x)

/-- The host reads back a number that fits 64 bits unsigned (R16). -/
theorem hostNumber_zext64 {v : Nat} (h : v < 2 ^ 64) : hostNumber .unsigned (zext64 v) = v :=
  congrArg Int.ofNat (Nat.mod_eq_of_lt h)

/-- The host reads back a number that fits 64 bits signed (R16). -/
theorem hostNumber_sext64 {v : Int} (hlo : -2 ^ 63 ≤ v) (hhi : v < 2 ^ 63) : hostNumber .signed (sext64 v) = v :=
  BitVec.toInt_ofInt_eq_self (by decide) hlo hhi

/-- A converted number of `w` bits lies in the signed range of `w` bits (R141). -/
theorem signConvert_range {w v : Nat} (hv : v < 2 ^ w) :
    -2 ^ (w - 1) ≤ signConvert w v ∧ signConvert w v ≤ 2 ^ (w - 1) - 1 := by
  have hx : signConvert w v = (BitVec.ofNat w v).toInt := by
    rw [← signConvert_toNat, BitVec.toNat_ofNat, Nat.mod_eq_of_lt hv]
  have hhi := (BitVec.ofNat w v).toInt_lt
  exact hx ▸ ⟨BitVec.le_toInt _, by omega⟩

/-- The host reads back a converted number of at most 64 bits. -/
theorem hostNumber_signConvert {w v : Nat} (hw : w ≤ 64) (hv : v < 2 ^ w) :
    hostNumber .signed (sext64 (signConvert w v)) = signConvert w v := by
  obtain ⟨hlo, hhi⟩ := signConvert_range hv
  have hpow : (2 : Int) ^ (w - 1) ≤ 2 ^ 63 := pow_le_pow_right₀ (by decide) (by omega)
  exact hostNumber_sext64 (by omega) (by omega)

/-! ## Bytes in BUF and the patterns they form -/

/-- A read of `x` and a read of the `n` bytes of `y` after it are one read of `x ++ y` (R14). -/
theorem memRead_append {m : Memory} {a k n w v : Nat} {x : BitVec w} {y : BitVec v} (hv : v = 8 * n)
    (hx : memRead m a k = .ok x.toNat) (hy : memRead m (a + k) n = .ok y.toNat) :
    memRead m a (k + n) = .ok (x ++ y).toNat := by
  subst hv
  have hjoin : (x ++ y).toNat = x.toNat * 256 ^ n + y.toNat := by
    rw [BitVec.toNat_append, ← Nat.shiftLeft_add_eq_or_of_lt y.isLt, Nat.shiftLeft_eq, Nat.pow_mul]
  rw [memRead_add, hx, hy, hjoin]

theorem memRead_two_bytes {m : Memory} {a : Nat} {b0 b1 : Byte} (h : holdsBytes m a [b0, b1]) :
    memRead m a 2 = .ok (b0 ++ b1).toNat := by
  obtain ⟨h0, h1, -⟩ := h
  exact memRead_append rfl (memRead_one h0) (memRead_one h1)

theorem memRead_three_bytes {m : Memory} {a : Nat} {b0 b1 b2 : Byte} (h : holdsBytes m a [b0, b1, b2]) :
    memRead m a 3 = .ok (b0 ++ b1 ++ b2).toNat := by
  obtain ⟨h0, h1, h2, -⟩ := h
  exact memRead_append rfl (memRead_two_bytes ⟨h0, h1, trivial⟩) (memRead_one h2)

theorem memRead_word {m : Memory} {a : Nat} {b0 b1 b2 b3 : Byte} (h : holdsBytes m a [b0, b1, b2, b3]) :
    memRead m a 4 = .ok (word4 b0 b1 b2 b3).toNat := by
  obtain ⟨h0, h1, h2, h3, -⟩ := h
  exact memRead_append rfl (memRead_three_bytes ⟨h0, h1, h2, trivial⟩) (memRead_one h3)

/-- `MemWrite` of a pattern puts its bytes most significant first (R14). -/
theorem memWrite_read_byte (m : Memory) {a n i w : Nat} (x : BitVec w) (h : i < n) :
    (memWrite m a n x.toNat).read (a + i) = some (x.extractLsb' (8 * (n - 1 - i)) 8) := by
  rw [memWrite_read_inside m h, BitVec.extractLsb', Nat.shiftRight_eq_div_pow, Nat.pow_mul]

/-- Reading back a pattern that `MemWrite` put gives its number (R14). -/
theorem memRead_memWrite_toNat (m : Memory) {a n w : Nat} (x : BitVec w) (hw : w = 8 * n) :
    memRead (memWrite m a n x.toNat) a n = .ok x.toNat := by
  subst hw
  rw [memRead_memWrite_same, Nat.mod_eq_of_lt (Nat.pow_mul 2 8 n ▸ x.isLt)]

/-- The number of a read has its top bit set exactly when its first byte has (R171). -/
theorem memRead_first_byte {m : Memory} {a n v : Nat} (hv : memRead m a (n + 1) = .ok v) :
    ∃ b0, m.read a = some b0 ∧ (b0.msb = true ↔ 2 ^ (8 * (n + 1) - 1) ≤ v) := by
  obtain ⟨b0, hb0⟩ := memRead_ok_written hv a (Nat.le_refl a) (by omega)
  obtain ⟨lo, hlo⟩ : ∃ lo, memRead m (a + 1) n = .ok lo :=
    memRead_ok_of_written fun x h1 h2 => memRead_ok_written hv x (by omega) (by omega)
  obtain rfl : b0.toNat * 256 ^ n + lo = v := by
    simpa [Nat.add_comm n 1, memRead_add, memRead_one hb0, hlo] using hv
  have hpos : 0 < 256 ^ n := Nat.pow_pos (by decide)
  have hdiv : (b0.toNat * 256 ^ n + lo) / 256 ^ n = b0.toNat := by
    rw [Nat.mul_comm, Nat.mul_add_div hpos, Nat.div_eq_of_lt (memRead_lt hlo), Nat.add_zero]
  have htop : 2 ^ (8 * (n + 1) - 1) = 128 * 256 ^ n := by
    rw [show 8 * (n + 1) - 1 = 7 + 8 * n by omega, Nat.pow_add, Nat.pow_mul]
  refine ⟨b0, hb0, ?_⟩
  rw [htop, ← Nat.le_div_iff_mul_le hpos, hdiv, BitVec.msb_eq_decide, decide_eq_true_iff]

/-- The sign conversion takes 2^(8n) off exactly when the top bit of the first byte is set (R142). -/
theorem signConvert_memRead {m : Memory} {a n v : Nat} (hn : 0 < n) (hv : memRead m a n = .ok v) :
    ∃ b0, m.read a = some b0 ∧ signConvert (8 * n) v = v - (if b0.msb then 2 ^ (8 * n) else 0) := by
  obtain ⟨k, rfl⟩ : ∃ k, n = k + 1 := ⟨n - 1, by omega⟩
  obtain ⟨b0, hb0, hmsb⟩ := memRead_first_byte hv
  have hpos := Nat.two_pow_pos (8 * (k + 1) - 1)
  refine ⟨b0, hb0, ?_⟩
  by_cases htop : b0.msb = true
  · have hle := hmsb.1 htop
    rw [signConvert, if_pos (by omega), if_pos htop]
  · have hlt := mt hmsb.2 htop
    rw [signConvert, if_neg (by omega), if_neg htop, sub_zero]

end Sys2Proof.Machine
end

section
/-! The big-endian integer codec (`spec/40_integer_codec.md` rules R130 to R143), and the ranges of the numbers that the read and
the smart commands return (rules R141, R176). -/

namespace Sys2Proof.Machine

/-! ## The read at the cursor as the statements write it -/

theorem readAtPos_afterBounds {i : Instr} {n : Nat} {p : Nat → DWord} {s : State} (h : ¬ inBounds s s.pos.toNat n) :
    readAtPos i n p s = .next (afterBounds i s) := readAtPos_out h

theorem readAtPos_afterRead {i : Instr} {n v : Nat} {p : Nat → DWord} {s : State} {r : DWord}
    (hin : inBounds s s.pos.toNat n) (hv : memRead s.buf s.pos.toNat n = .ok v) (hr : p v = r) :
    readAtPos i n p s = .next (afterRead s n r) := by
  subst hr
  exact readAtPos_ok hin hv

/-- A read at the cursor that answers OK has read a number and returns its pattern (R140). -/
theorem readAtPos_completed {i : Instr} {n : Nat} {p : Nat → DWord} {s t : State} (ht : readAtPos i n p s = .next t)
    (hok : t.status = 0x00) :
    ∃ v, inBounds s s.pos.toNat n ∧ memRead s.buf s.pos.toNat n = .ok v ∧ t = afterRead s n (p v) := by
  obtain ⟨-, e⟩ | ⟨v, hin, hv, e⟩ | ⟨a, -, -, e⟩ := readAtPos_cases i n p s <;> rw [e] at ht <;> cases ht
  · exact absurd hok (by decide : (0x01 : BitVec 8) ≠ 0x00)
  · exact ⟨v, hin, hv, rfl⟩

/-! ## The read commands, one by one -/

/-- Settles O16: RD1U is the read of one byte at the cursor. -/
theorem rd1uReadsOneByteUnsigned : Obligations.Rd1uReadsOneByteUnsigned := by
  unfold Obligations.Rd1uReadsOneByteUnsigned
  exact ⟨fun _ => rfl, fun s => ⟨readAtPos_afterBounds, fun b0 hin ⟨h0, _⟩ =>
    readAtPos_afterRead hin (memRead_one h0) (zext64_toNat b0)⟩⟩

/-- Settles O17: RD1S is the read of one byte at the cursor, converted. -/
theorem rd1sReadsOneByteSigned : Obligations.Rd1sReadsOneByteSigned := by
  unfold Obligations.Rd1sReadsOneByteSigned
  exact ⟨fun _ => rfl, fun s => ⟨readAtPos_afterBounds, fun b0 hin ⟨h0, _⟩ =>
    readAtPos_afterRead hin (memRead_one h0) (sext64_signConvert_toNat b0)⟩⟩

/-- Settles O18: RD2U is the read of two bytes at the cursor. -/
theorem rd2uReadsTwoBytesUnsigned : Obligations.Rd2uReadsTwoBytesUnsigned := by
  unfold Obligations.Rd2uReadsTwoBytesUnsigned
  exact ⟨fun _ => rfl, fun s => ⟨readAtPos_afterBounds, fun b0 b1 hin hb =>
    readAtPos_afterRead hin (memRead_two_bytes hb) (zext64_toNat (b0 ++ b1))⟩⟩

/-- Settles O19: RD2S is the read of two bytes at the cursor, converted. -/
theorem rd2sReadsTwoBytesSigned : Obligations.Rd2sReadsTwoBytesSigned := by
  unfold Obligations.Rd2sReadsTwoBytesSigned
  exact ⟨fun _ => rfl, fun s => ⟨readAtPos_afterBounds, fun b0 b1 hin hb =>
    readAtPos_afterRead hin (memRead_two_bytes hb) (sext64_signConvert_toNat (b0 ++ b1))⟩⟩

/-- Settles O20: RD3U is the read of three bytes at the cursor. -/
theorem rd3uReadsThreeBytesUnsigned : Obligations.Rd3uReadsThreeBytesUnsigned := by
  unfold Obligations.Rd3uReadsThreeBytesUnsigned
  exact ⟨fun _ => rfl, fun s => ⟨readAtPos_afterBounds, fun b0 b1 b2 hin hb =>
    readAtPos_afterRead hin (memRead_three_bytes hb) (zext64_toNat (b0 ++ b1 ++ b2))⟩⟩

/-- RD4U and RD4S in bounds return the word at the cursor, zero- or sign-extended (R135, R136). -/
theorem exec_rd4_afterRead {i : Instr} {s : State} {w : Word} (hi : i = .rd4u ∨ i = .rd4s)
    (hin : inBounds s s.pos.toNat 4) (hv : memRead s.buf s.pos.toNat 4 = .ok w.toNat) :
    exec i s = .next (afterRead s 4 (if i = .rd4u then w.setWidth 64 else w.signExtend 64)) := by
  obtain rfl | rfl := hi
  · exact readAtPos_afterRead hin hv (zext64_toNat w)
  · exact readAtPos_afterRead hin hv (sext64_signConvert_toNat w)

/-- Settles O21: RD4U is the read of a word at the cursor. -/
theorem rd4uReadsFourBytesUnsigned : Obligations.Rd4uReadsFourBytesUnsigned := by
  unfold Obligations.Rd4uReadsFourBytesUnsigned
  exact ⟨fun _ => rfl, fun s => ⟨readAtPos_afterBounds, fun b0 b1 b2 b3 hin hb =>
    exec_rd4_afterRead (.inl rfl) hin (memRead_word hb)⟩⟩

/-- Settles O22: RD4S is the read of a word at the cursor, converted. -/
theorem rd4sReadsFourBytesSigned : Obligations.Rd4sReadsFourBytesSigned := by
  unfold Obligations.Rd4sReadsFourBytesSigned
  exact ⟨fun _ => rfl, fun s => ⟨readAtPos_afterBounds, fun b0 b1 b2 b3 hin hb =>
    exec_rd4_afterRead (.inr rfl) hin (memRead_word hb)⟩⟩

/-- Settles O23: RD8U is one read of eight bytes (`execRd8u_eq`), which are the high word and the low word. -/
theorem rd8uReadsEightBytesUnsigned : Obligations.Rd8uReadsEightBytesUnsigned := by
  unfold Obligations.Rd8uReadsEightBytesUnsigned
  refine ⟨fun _ => rfl, fun s => ⟨fun hout => (execRd8u_eq s).trans (readAtPos_afterBounds hout), ?_⟩⟩
  intro b0 b1 b2 b3 b4 b5 b6 b7 hin hb
  obtain ⟨h0, h1, h2, h3, hlow⟩ := hb
  have hv : memRead s.buf s.pos.toNat (4 + 4) = .ok (word4 b0 b1 b2 b3 ++ word4 b4 b5 b6 b7).toNat :=
    memRead_append rfl (memRead_word ⟨h0, h1, h2, h3, trivial⟩) (memRead_word hlow)
  refine (execRd8u_eq s).trans (readAtPos_afterRead hin hv ?_)
  rw [zext64_toNat, BitVec.setWidth_eq]

theorem boolNumber_of_other (c : Config) {b : Nat} (h0 : b ≠ 0) (h1 : b ≠ 1) : boolNumber c b = c.boolOther.toNat := by
  rw [boolNumber, if_neg h1, if_neg h0]

theorem boolNumber_le_one (c : Config) (b : Nat) : boolNumber c b ≤ 1 := by
  unfold boolNumber
  split
  · exact Nat.le_refl 1
  · split
    · exact Nat.zero_le 1
    · exact Bool.toNat_le c.boolOther

/-- Settles O24: RDBOOL is the read of one byte at the cursor, and `boolNumber` tests it for 1 and for 0. -/
theorem rdboolReadsOneByteBoolean : Obligations.RdboolReadsOneByteBoolean := by
  unfold Obligations.RdboolReadsOneByteBoolean
  refine ⟨fun _ => rfl, fun s => ⟨readAtPos_afterBounds, fun b0 hin ⟨h0, _⟩ => ⟨?_, ?_, fun hne0 hne1 => ?_⟩⟩⟩
  · rintro rfl
    exact readAtPos_afterRead hin (memRead_one h0) rfl
  · rintro rfl
    exact readAtPos_afterRead hin (memRead_one h0) rfl
  · have hn0 : b0.toNat ≠ 0 := fun h => hne0 (BitVec.eq_of_toNat_eq h)
    have hn1 : b0.toNat ≠ 1 := fun h => hne1 (BitVec.eq_of_toNat_eq h)
    refine readAtPos_afterRead hin (memRead_one h0) ?_
    rw [boolNumber_of_other s.cfg hn0 hn1]
    cases s.cfg.boolOther <;> rfl

/-! ## WR4, and reading back what it wrote -/

/-- Settles O25: WR4 is a `MemWrite` of four bytes at the cursor. -/
theorem wr4WritesFourBytesBigEndian : Obligations.Wr4WritesFourBytesBigEndian := by
  unfold Obligations.Wr4WritesFourBytesBigEndian
  intro s w
  refine ⟨rfl, exec_wr4_out, fun hin =>
    ⟨memWrite s.buf s.pos.toNat 4 w.toNat, exec_wr4_ok hin, ?_, fun _ => memWrite_read_outside s.buf⟩⟩
  have hbyte {i : Nat} (hi : i < 4) := memWrite_read_byte s.buf (a := s.pos.toNat) w hi
  exact ⟨hbyte (i := 0) (by decide), hbyte (i := 1) (by decide), hbyte (i := 2) (by decide), hbyte (i := 3) (by decide),
    trivial⟩

/-- A run on an offered command that answers goes on from its next state. -/
theorem run_driveInstr {s t : State} {i : Instr} {xs : List Inputs} (k : Nat) (hp : s.phase = .idle)
    (hx : s.inputs = driveInstr i :: xs) (ht : exec i (whileBusy s) = .next t) :
    core.run (k + 1) s = core.run k t := run_succ k ((step_of_driveInstr hp hx).trans ht)

/-- Settles O27: the four commands one after the other; the last reads what `MemWrite` put at `p`. -/
theorem writeThenReadRoundTrips : Obligations.WriteThenReadRoundTrips := by
  unfold Obligations.WriteThenReadRoundTrips
  intro s p w xs i hp hin hi hx
  have hle : p.toNat ≤ s.length.toNat := by omega
  have hx1 : s.inputs.tail = driveInstr (.wr4 w) :: _ := congrArg List.tail hx
  have hx2 : s.inputs.tail.tail = driveInstr (.setpos p) :: _ := congrArg List.tail hx1
  have hx3 : s.inputs.tail.tail.tail = driveInstr i :: xs := congrArg List.tail hx2
  have hread := memRead_memWrite_toNat s.buf (a := p.toNat) (n := 4) w rfl
  have hrun := calc
    core.run 4 s = core.run 3 _ := run_driveInstr 3 hp hx (exec_setpos_ok hle)
    _ = core.run 2 _ := run_driveInstr 2 rfl hx1 (exec_wr4_ok hin)
    _ = core.run 1 _ := run_driveInstr 1 rfl hx2 (exec_setpos_ok hle)
    _ = core.run 0 _ := run_driveInstr 0 rfl hx3 (exec_rd4_afterRead hi hin hread)
  refine ⟨_, hrun, rfl, rfl, ?_, rfl, congrArg List.tail hx3, fun a => memWrite_read_outside s.buf⟩
  exact Nat.mod_eq_of_lt (Nat.lt_of_le_of_lt hin s.length.isLt)

/-! ## Signed against unsigned -/

/-- Settles O28: both are reads of the same number, and the sign conversion takes 2^(8n) off it for the top bit. -/
theorem signedAndUnsignedReadsDifferByTopBit : Obligations.SignedAndUnsignedReadsDifferByTopBit := by
  unfold Obligations.SignedAndUnsignedReadsDifferByTopBit
  intro s tu iu is n hpair htu hok
  obtain ⟨hn, hn4, hu, hs⟩ : 0 < n ∧ n ≤ 4 ∧ exec iu s = readAtPos iu n zext64 s ∧
      exec is s = readAtPos is n (fun v => sext64 (signConvert (8 * n) v)) s := by
    obtain h | h | h := hpair <;> cases h <;> exact ⟨by decide, by decide, rfl, rfl⟩
  obtain ⟨v, hin, hv, rfl⟩ := readAtPos_completed (hu.symm.trans htu) hok
  obtain ⟨b0, hb0, hconv⟩ := signConvert_memRead hn hv
  refine ⟨_, b0, hs.trans (readAtPos_afterRead hin hv rfl), rfl, hb0, ?_⟩
  have hlt : v < 2 ^ (8 * n) := Nat.pow_mul 2 8 n ▸ memRead_lt hv
  have hpow : 2 ^ (8 * n) ≤ 2 ^ 64 := Nat.pow_le_pow_right (by decide) (by omega)
  calc hostNumber .signed (sext64 (signConvert (8 * n) v))
      = signConvert (8 * n) v := hostNumber_signConvert (by omega) hlt
    _ = v - (if b0.msb then 2 ^ (8 * n) else 0) := hconv
    _ = hostNumber .unsigned (zext64 v) - _ := by rw [hostNumber_zext64 (Nat.lt_of_lt_of_le hlt hpow)]

/-! ## The ranges -/

/-- The number the host reads from the pattern `r` lies in the range of command `i` (R141, R176). -/
def InNumberRange (i : Instr) (sg : Signedness) (r : DWord) : Prop :=
  (numberRange i).1 ≤ hostNumber sg r ∧ hostNumber sg r ≤ (numberRange i).2

theorem zext64_inNumberRange {i : Instr} {v M : Nat} (hr : numberRange i = (0, (M : Int))) (hM : M < 2 ^ 64)
    (hv : v ≤ M) : InNumberRange i .unsigned (zext64 v) := by
  rw [InNumberRange, hostNumber_zext64 (Nat.lt_of_le_of_lt hv hM), hr]
  exact ⟨Int.natCast_nonneg v, Int.ofNat_le.2 hv⟩

theorem sext64_inNumberRange {i : Instr} {v lo hi : Int} (hr : numberRange i = (lo, hi)) (hlo : -2 ^ 63 ≤ lo)
    (hhi : hi < 2 ^ 63) (hv : lo ≤ v ∧ v ≤ hi) : InNumberRange i .signed (sext64 v) := by
  rw [InNumberRange, hostNumber_sext64 (by omega) (by omega), hr]
  exact hv

/-- What holds of the pattern of every number of n bytes holds of RESULT after a read at the cursor that answers OK. -/
theorem readAtPos_result {i : Instr} {n : Nat} {p : Nat → DWord} {s t : State} {P : DWord → Prop}
    (hp : ∀ v, v < 256 ^ n → P (p v)) (ht : readAtPos i n p s = .next t) (hok : t.status = 0x00) :
    t.resultValid = true ∧ P t.result := by
  obtain ⟨v, -, hv, rfl⟩ := readAtPos_completed ht hok
  exact ⟨rfl, hp v (memRead_lt hv)⟩

/-- The same for a smart command: the short form reads a number with the top bit clear, the long form one with it set (R171). -/
theorem readSmart_result {i : Instr} {k n : Nat} {p q : Nat → DWord} {s t : State} {P : DWord → Prop}
    (hshort : ∀ v, v < 2 ^ (8 * (k + 1) - 1) → P (p v))
    (hlong : ∀ v, 2 ^ (8 * (n + 1) - 1) ≤ v → v < 256 ^ (n + 1) → P (q v))
    (ht : readSmart i (k + 1, p) (n + 1, q) s = .next t) (hok : t.status = 0x00) :
    t.resultValid = true ∧ P t.result := by
  obtain ⟨-, e⟩ | ⟨-, -, e⟩ | ⟨b0, -, hb0, e⟩ := readSmart_cases i (k + 1, p) (n + 1, q) s <;> rw [e] at ht
  · cases ht
    exact absurd hok (by decide : (0x01 : BitVec 8) ≠ 0x00)
  · cases ht
  · have hfirst {j v : Nat} (hv : memRead s.buf s.pos.toNat (j + 1) = .ok v) :
        b0.msb = true ↔ 2 ^ (8 * (j + 1) - 1) ≤ v := by
      obtain ⟨b, hb, hmsb⟩ := memRead_first_byte hv
      rwa [Option.some.inj (hb0.symm.trans hb)]
    by_cases htop : b0.msb = true
    · rw [if_pos htop] at ht
      obtain ⟨v, -, hv, rfl⟩ := readAtPos_completed ht hok
      exact ⟨rfl, hlong v ((hfirst hv).1 htop) (memRead_lt hv)⟩
    · rw [if_neg htop] at ht
      obtain ⟨v, -, hv, rfl⟩ := readAtPos_completed ht hok
      exact ⟨rfl, hshort v (Nat.lt_of_not_le (mt (hfirst hv).2 htop))⟩

/-- Settles O33: the numbers each command's pattern is made of, and their bounds, form by form. -/
theorem readResultsLieInTheirRanges : Obligations.ReadResultsLieInTheirRanges := by
  unfold Obligations.ReadResultsLieInTheirRanges
  intro i sg s t hsg ht hok
  show t.resultValid = true ∧ InNumberRange i sg t.result
  cases i <;> cases hsg
  case rd1u | rd2u | rd3u | rd4u =>
    exact readAtPos_result (fun v hv => zext64_inNumberRange rfl (by decide) (Nat.le_sub_one_of_lt hv)) ht hok
  case rd8u =>
    exact readAtPos_result (fun v hv => zext64_inNumberRange rfl (by decide) (Nat.le_sub_one_of_lt hv))
      ((execRd8u_eq s).symm.trans ht) hok
  case rd1s | rd2s | rd4s =>
    exact readAtPos_result (fun v hv => sext64_inNumberRange rfl (by decide) (by decide) (signConvert_range hv)) ht hok
  case rdbool =>
    exact readAtPos_result (fun v _ => zext64_inNumberRange rfl (by decide) (boolNumber_le_one s.cfg v)) ht hok
  case smartu =>
    exact readSmart_result (fun v hv => zext64_inNumberRange (M := 32767) rfl (by decide) (by omega))
      (fun v _ hv => zext64_inNumberRange (M := 32767) rfl (by decide) (by omega)) ht hok
  case smarts =>
    exact readSmart_result (fun v hv => sext64_inNumberRange rfl (by decide) (by decide) (by omega))
      (fun v htop hv => sext64_inNumberRange rfl (by decide) (by decide) (by omega)) ht hok
  case smart4m =>
    exact readSmart_result (fun v hv => zext64_inNumberRange (M := 2 ^ 31 - 1) rfl (by decide) (by omega))
      (fun v _ _ => zext64_inNumberRange (M := 2 ^ 31 - 1) rfl (by decide) Nat.and_le_right) ht hok
  case smart4u =>
    exact readSmart_result (fun v hv => sext64_inNumberRange rfl (by decide) (by decide) (by omega))
      (fun v htop hv => sext64_inNumberRange rfl (by decide) (by decide) (by omega)) ht hok

end Sys2Proof.Machine
end

section
/-! The variable-length ("smart") integer decoder (`spec/41_smart_decoder.md` rules R171 to R175): the peek and the two forms of a
smart command as the statements write them, the patterns of the long forms, and the four commands. -/

namespace Sys2Proof.Machine

/-! ## The peek and the two forms -/

theorem readSmart_afterBounds {i : Instr} {f g : Nat × (Nat → DWord)} {s : State} (hout : ¬ inBounds s s.pos.toNat 1) :
    readSmart i f g s = .next (afterBounds i s) := readSmart_out hout

/-- With too few bytes for the form that the peeked byte selects, a smart command raises E_BOUNDS (R171). -/
theorem readSmart_form_afterBounds {i : Instr} {k n : Nat} {p q : Nat → DWord} {s : State} {b0 : Byte}
    (hin : inBounds s s.pos.toNat 1) (hb : holdsBytes s.buf s.pos.toNat [b0])
    (hout : ¬ inBounds s s.pos.toNat (if b0.msb then n else k)) :
    readSmart i (k, p) (n, q) s = .next (afterBounds i s) := by
  rw [readSmart_peek hin hb.1]
  split at hout
  case isTrue htop => rw [if_pos htop, readAtPos_afterBounds hout]
  case isFalse htop => rw [if_neg htop, readAtPos_afterBounds hout]

/-- With the top bit of the first byte clear, a smart command in bounds reads its short form (R171). -/
theorem readSmart_short_afterRead {i : Instr} {n v : Nat} {p : Nat → DWord} {g : Nat × (Nat → DWord)} {s : State}
    {b0 : Byte} {bs : List Byte} {r : DWord} (hn : 0 < n) (hin : inBounds s s.pos.toNat n)
    (hb : holdsBytes s.buf s.pos.toNat (b0 :: bs)) (htop : b0.msb = false)
    (hv : memRead s.buf s.pos.toNat n = .ok v) (hr : p v = r) :
    readSmart i (n, p) g s = .next (afterRead s n r) := by
  have hpeek : inBounds s s.pos.toNat 1 := (Nat.add_le_add_left hn _).trans hin
  rw [readSmart_peek hpeek hb.1, htop]
  exact readAtPos_afterRead hin hv hr

/-- With the top bit of the first byte set, a smart command in bounds reads its long form (R171). -/
theorem readSmart_long_afterRead {i : Instr} {n v : Nat} {f : Nat × (Nat → DWord)} {q : Nat → DWord} {s : State}
    {b0 : Byte} {bs : List Byte} {r : DWord} (hn : 0 < n) (hin : inBounds s s.pos.toNat n)
    (hb : holdsBytes s.buf s.pos.toNat (b0 :: bs)) (htop : b0.msb = true)
    (hv : memRead s.buf s.pos.toNat n = .ok v) (hr : q v = r) :
    readSmart i f (n, q) s = .next (afterRead s n r) := by
  have hpeek : inBounds s s.pos.toNat 1 := (Nat.add_le_add_left hn _).trans hin
  rw [readSmart_peek hpeek hb.1, htop]
  exact readAtPos_afterRead hin hv hr

/-! ## Patterns -/

/-- The pattern of a number that is not negative is the same under both extensions (R10). -/
theorem sext64_natCast (v : Nat) : sext64 v = zext64 v := BitVec.ofInt_natCast 64 v

/-- Where an unsigned command's difference is not negative, it is the difference of the integers (R172). -/
theorem zext64_sub {v k : Nat} (h : k ≤ v) : zext64 (v - k) = BitVec.ofInt 64 (v - k) := by
  rw [← sext64_natCast, Int.natCast_sub h, sext64]

/-- Clearing bit 31 of a word clears it in the word's number (R174). -/
theorem zext64_clear_bit31 (w : Word) : zext64 (w.toNat &&& 0x7FFFFFFF) = (w &&& 0x7FFFFFFF).setWidth 64 := by
  rw [← zext64_toNat, BitVec.toNat_and]
  rfl

/-- With its top bit set, a pattern of `w` bits is the signed number 2^w below its unsigned one (R175). -/
theorem sext64_sub_two_pow {w : Nat} {x : BitVec w} (htop : x.msb = true) :
    sext64 ((x.toNat : Int) - 2 ^ w) = x.signExtend 64 := by
  rw [BitVec.signExtend, BitVec.toInt_eq_msb_cond, if_pos htop, sext64]
  norm_cast

/-- Two bytes of which the first has its top bit set form a number of at least 0x8000 (R172). -/
theorem le_two_bytes_of_msb {b0 : Byte} (b1 : Byte) (htop : b0.msb = true) : 0x8000 ≤ (b0 ++ b1).toNat :=
  BitVec.toNat_ge_of_msb_true (x := b0 ++ b1) (by rw [BitVec.msb_append]; exact htop)

/-- The top bit of a word is that of its first byte (R14). -/
theorem msb_word4 (b0 b1 b2 b3 : Byte) : (word4 b0 b1 b2 b3).msb = b0.msb := by
  rw [word4, BitVec.msb_append, BitVec.msb_append, BitVec.msb_append]
  rfl

/-! ## The smart commands, one by one -/

/-- Settles O29: SMARTU by the peek and its two forms; the top bit keeps the long form's difference from going below 0. -/
theorem smartuDecodesShortAndLong : Obligations.SmartuDecodesShortAndLong := by
  unfold Obligations.SmartuDecodesShortAndLong
  refine ⟨fun _ => rfl, fun s => ⟨readSmart_afterBounds, fun b0 hin hb htop => ?short, fun b0 hin hb htop hout => ?out,
    fun b0 b1 hin hb htop => ?long⟩⟩
  case short => exact readSmart_short_afterRead Nat.one_pos hin hb htop (memRead_one hb.1) (zext64_toNat b0)
  case out => exact readSmart_form_afterBounds hin hb (by rwa [htop])
  case long =>
    exact readSmart_long_afterRead Nat.two_pos hin hb htop (memRead_two_bytes hb) (zext64_sub (le_two_bytes_of_msb b1 htop))

/-- Settles O30: SMARTS by the peek and its two forms; both offsets are taken off as integers. -/
theorem smartsDecodesShortAndLong : Obligations.SmartsDecodesShortAndLong := by
  unfold Obligations.SmartsDecodesShortAndLong
  refine ⟨fun _ => rfl, fun s => ⟨readSmart_afterBounds, fun b0 hin hb htop => ?short, fun b0 hin hb htop hout => ?out,
    fun b0 b1 hin hb htop => ?long⟩⟩
  case short => exact readSmart_short_afterRead Nat.one_pos hin hb htop (memRead_one hb.1) rfl
  case out => exact readSmart_form_afterBounds hin hb (by rwa [htop])
  case long => exact readSmart_long_afterRead Nat.two_pos hin hb htop (memRead_two_bytes hb) rfl

/-- Settles O31: SMART4M by the peek and its two forms; the mask acts on the word as on its number. -/
theorem smart4mDecodesShortAndLong : Obligations.Smart4mDecodesShortAndLong := by
  unfold Obligations.Smart4mDecodesShortAndLong
  refine ⟨fun _ => rfl, fun s => ⟨readSmart_afterBounds, fun b0 => readSmart_form_afterBounds,
    fun b0 b1 hin hb htop => ?short, fun b0 b1 b2 b3 hin hb htop => ?long⟩⟩
  case short =>
    exact readSmart_short_afterRead Nat.two_pos hin hb htop (memRead_two_bytes hb) (zext64_toNat (b0 ++ b1))
  case long =>
    exact readSmart_long_afterRead (by decide) hin hb htop (memRead_word hb) (zext64_clear_bit31 _)

/-- Settles O32: SMART4U by the peek and its two forms; the word's top bit, set in the long form, makes it negative. -/
theorem smart4uDecodesShortAndLong : Obligations.Smart4uDecodesShortAndLong := by
  unfold Obligations.Smart4uDecodesShortAndLong
  refine ⟨fun _ => rfl, fun s => ⟨readSmart_afterBounds, fun b0 => readSmart_form_afterBounds,
    fun b0 b1 hin hb htop => ?short, fun b0 b1 b2 b3 hin hb htop => ?long⟩⟩
  case short =>
    exact readSmart_short_afterRead Nat.two_pos hin hb htop (memRead_two_bytes hb)
      ((sext64_natCast _).trans (zext64_toNat (b0 ++ b1)))
  case long =>
    exact readSmart_long_afterRead (by decide) hin hb htop (memRead_word hb)
      (sext64_sub_two_pow ((msb_word4 b0 b1 b2 b3).trans htop))

end Sys2Proof.Machine
end

section
/-! The XTEA block decryptor (`spec/42_xtea_decryptor.md` rules R190 to R196): its rounds as a fold over the rows of the key
schedule, the forward encipherment as the fold the other way, and DECRYPT block by block. -/

namespace Sys2Proof.Machine

/-! ## The rounds as folds over the key schedule -/

/-- The row of R191 for the round that `sum` begins: `sum` and the key index for z, then for y. -/
def scheduleRow (sum : Word) : Word × BitVec 2 × Word × BitVec 2 :=
  (sum, (sum >>> 11).extractLsb' 0 2, sum - delta, (sum - delta).extractLsb' 0 2)

/-- The rows of the `n` rounds from `sum` on; each round takes one DELTA off (R190). -/
def scheduleFrom : Nat → Word → List (Word × BitVec 2 × Word × BitVec 2)
  | 0, _ => []
  | n + 1, sum => scheduleRow sum :: scheduleFrom n (sum - delta)

/-- The round of 95 §1.3 that undoes `tableRound`: y by the row's second half, then z by its first. -/
def untableRound (K : Key) (row : Word × BitVec 2 × Word × BitVec 2) (yz : Word × Word) : Word × Word :=
  let y := yz.1 + halfRound yz.2 row.2.2.1 (K.get row.2.2.2)
  (y, yz.2 + halfRound y row.1 (K.get row.2.1))

/-- The computed schedule of R190 is the table of R191. -/
theorem scheduleFrom_start : scheduleFrom 32 (delta * 32) = scheduleFirstHalf ++ scheduleSecondHalf := by decide

/-- One round more takes one DELTA more off `sum`. -/
theorem sub_delta_mul_succ (sum : Word) (n : Nat) :
    sum - delta * ((n + 1 : Nat) : Word) = sum - delta * n - delta := by
  rw [Nat.cast_succ, mul_add_one, sub_add_eq_sub_sub]

/-- The schedule at its last row, which is the first one that the encipherment takes. -/
theorem scheduleFrom_succ_last (n : Nat) (sum : Word) :
    scheduleFrom (n + 1) sum = scheduleFrom n sum ++ [scheduleRow (sum - delta * n)] := by
  induction n generalizing sum with
  | zero => simp [scheduleFrom]
  | succ n ih =>
    rw [scheduleFrom, ih, scheduleFrom, List.cons_append, sub_delta_mul_succ, sub_right_comm]

/-- Decipherment takes the rows of the schedule in order (R190). -/
theorem xteaRounds_eq_foldl (K : Key) (n : Nat) (y z sum : Word) :
    xteaRounds K n y z sum = (scheduleFrom n sum).foldl (fun yz row => tableRound K row yz) (y, z) := by
  induction n generalizing y z sum with
  | zero => rfl
  | succ n ih => exact ih _ _ _

/-- Encipherment undoes the rows of the schedule from the last one back (95 §1.3). -/
theorem encipherRounds_eq_foldr (K : Key) (n : Nat) (y z sum : Word) :
    encipherRounds K n y z (sum - delta * n) = (scheduleFrom n sum).foldr (untableRound K) (y, z) := by
  induction n generalizing y z with
  | zero => rfl
  | succ n ih =>
    rw [scheduleFrom_succ_last, List.foldr_concat, ← ih, sub_delta_mul_succ, encipherRounds, add_sub_cancel]
    rfl

/-- Settles O35: the rounds fold over the computed schedule, and that is the table. -/
theorem deciphermentFollowsKeySchedule : Obligations.DeciphermentFollowsKeySchedule := by
  unfold Obligations.DeciphermentFollowsKeySchedule
  intro y z K
  rw [xteaDec, xteaRounds_eq_foldl, scheduleFrom_start]

/-! ## Encipherment and decipherment undo each other -/

/-- The half-rounds are taken back in opposite order: each adds what it subtracted, since the other word is the same again. -/
theorem untableRound_tableRound (K : Key) (row : Word × BitVec 2 × Word × BitVec 2) (yz : Word × Word) :
    untableRound K row (tableRound K row yz) = yz := by
  simp only [untableRound, tableRound, halfRound, sub_add_cancel]

theorem tableRound_untableRound (K : Key) (row : Word × BitVec 2 × Word × BitVec 2) (yz : Word × Word) :
    tableRound K row (untableRound K row yz) = yz := by
  simp only [untableRound, tableRound, halfRound, add_sub_cancel_right]

/-- Undoing the rows of a list from the last one back undoes the rounds of the list. -/
theorem foldr_untableRound_foldl (K : Key) (rows : List (Word × BitVec 2 × Word × BitVec 2)) (yz : Word × Word) :
    rows.foldr (untableRound K) (rows.foldl (fun yz row => tableRound K row yz) yz) = yz := by
  induction rows generalizing yz with
  | nil => rfl
  | cons row rows ih => rw [List.foldl_cons, List.foldr_cons, ih, untableRound_tableRound]

theorem foldl_tableRound_foldr (K : Key) (rows : List (Word × BitVec 2 × Word × BitVec 2)) (yz : Word × Word) :
    rows.foldl (fun yz row => tableRound K row yz) (rows.foldr (untableRound K) yz) = yz := by
  induction rows with
  | nil => rfl
  | cons row rows ih => rw [List.foldr_cons, List.foldl_cons, tableRound_untableRound, ih]

theorem xteaDec_eq_foldl (y z : Word) (K : Key) :
    xteaDec y z K = (scheduleFrom 32 (delta * 32)).foldl (fun yz row => tableRound K row yz) (y, z) :=
  xteaRounds_eq_foldl K 32 y z (delta * 32)

/-- Encipherment starts at `sum = 0`, where the schedule of decipherment ends (R190, 95 §1.3). -/
theorem encipher_eq_foldr (y z : Word) (K : Key) :
    encipher y z K = (scheduleFrom 32 (delta * 32)).foldr (untableRound K) (y, z) :=
  encipherRounds_eq_foldr K 32 y z (delta * 32)

/-- Settles O36: the two are folds over the same rows in opposite order, and each row's rounds undo each other. -/
theorem deciphermentInvertsEncipherment : Obligations.DeciphermentInvertsEncipherment := by
  unfold Obligations.DeciphermentInvertsEncipherment
  intro y z K
  constructor
  · rw [encipher_eq_foldr, xteaDec_eq_foldl, foldr_untableRound_foldl]
  · rw [xteaDec_eq_foldl, encipher_eq_foldr, foldl_tableRound_foldr]

/-! ## The block loop -/

/-- What the block loop stores at `a` for a deciphered block (R193). -/
def storeBlock (m : Memory) (a : Nat) (yz : Word × Word) : Memory :=
  memWrite (memWrite m a 4 yz.1.toNat) (a + 4) 4 yz.2.toNat

/-- The bytes of a block, y before z and each most significant first (R193). -/
def blockBytes (yz : Word × Word) : List Byte :=
  [yz.1.extractLsb' 24 8, yz.1.extractLsb' 16 8, yz.1.extractLsb' 8 8, yz.1.extractLsb' 0 8,
   yz.2.extractLsb' 24 8, yz.2.extractLsb' 16 8, yz.2.extractLsb' 8 8, yz.2.extractLsb' 0 8]

theorem storeBlock_read_outside (m : Memory) {a x : Nat} (yz : Word × Word) (h : x < a ∨ a + 8 ≤ x) :
    (storeBlock m a yz).read x = m.read x := by
  rw [storeBlock, memWrite_read_outside _ (by omega), memWrite_read_outside _ (by omega)]

/-- What a stored block holds: four bytes of each word. -/
theorem holdsBytes_storeBlock (m : Memory) (a : Nat) (yz : Word × Word) :
    holdsBytes (storeBlock m a yz) a (blockBytes yz) := by
  have hy {i : Nat} (hi : i < 4) : (storeBlock m a yz).read (a + i) = some (yz.1.extractLsb' (8 * (3 - i)) 8) := by
    rw [storeBlock, memWrite_read_outside _ (by omega), memWrite_read_byte m yz.1 hi]
  have hz {i : Nat} (hi : i < 4) : (storeBlock m a yz).read (a + 4 + i) = some (yz.2.extractLsb' (8 * (3 - i)) 8) :=
    memWrite_read_byte _ yz.2 hi
  exact ⟨hy (i := 0) (by decide), hy (i := 1) (by decide), hy (i := 2) (by decide), hy (i := 3) (by decide),
    hz (i := 0) (by decide), hz (i := 1) (by decide), hz (i := 2) (by decide), hz (i := 3) (by decide), trivial⟩

/-- `holdsBytes` depends on its own bytes only. -/
theorem holdsBytes_congr {m m' : Memory} {a : Nat} {bs : List Byte}
    (h : ∀ x, a ≤ x → x < a + bs.length → m'.read x = m.read x) (hm : holdsBytes m a bs) : holdsBytes m' a bs := by
  induction bs generalizing a with
  | nil => trivial
  | cons b bs ih =>
    obtain ⟨hb, hbs⟩ := hm
    rw [List.length_cons] at h
    exact ⟨(h a (Nat.le_refl a) (by omega)).trans hb, ih (fun x h1 h2 => h x (by omega) (by omega)) hbs⟩

/-- A block loop that completes has read its first block, stored its decipherment and gone on with the next (R193). -/
theorem decryptBlocks_succ_ok {K : Key} {n a : Nat} {m m' : Memory} (h : decryptBlocks K (n + 1) a m = .ok m') :
    ∃ y z : Nat, memRead m a 4 = .ok y ∧ memRead m (a + 4) 4 = .ok z ∧
      decryptBlocks K n (a + 8) (storeBlock m a (xteaDec (BitVec.ofNat 32 y) (BitVec.ofNat 32 z) K)) = .ok m' := by
  simp only [decryptBlocks] at h
  cases hy : memRead m a 4 with
  | error x => simp [hy] at h
  | ok y =>
    cases hz : memRead m (a + 4) 4 with
    | error x => simp [hy, hz] at h
    | ok z => exact ⟨y, z, rfl, rfl, by simpa only [hy, hz, storeBlock] using h⟩

/-- A block loop that completes has read a value at every byte of its blocks (R193, R236). -/
theorem decryptBlocks_ok_written {K : Key} {n a x : Nat} {m m' : Memory} (h : decryptBlocks K n a m = .ok m')
    (hax : a ≤ x) (hx : x < a + 8 * n) : ∃ b, m.read x = some b := by
  induction n generalizing a m with
  | zero => omega
  | succ n ih =>
    obtain ⟨y, z, hy, hz, hrest⟩ := decryptBlocks_succ_ok h
    rcases Nat.lt_or_ge x (a + 8) with hfirst | hlater
    · rcases Nat.lt_or_ge x (a + 4) with hlt | hge
      · exact memRead_ok_written hy x hax hlt
      · exact memRead_ok_written hz x hge hfirst
    · rw [← storeBlock_read_outside m _ (.inr hlater)]
      exact ih hrest hlater (by omega)

/-- The block loop over written bytes completes (R193). -/
theorem decryptBlocks_ok_of_written (K : Key) {n a : Nat} {m : Memory} (h : ∀ j, j < 8 * n → ∃ b, m.read (a + j) = some b) :
    ∃ m', decryptBlocks K n a m = .ok m' := by
  cases hm : decryptBlocks K n a m with
  | ok m' => exact ⟨m', rfl⟩
  | error x =>
    obtain ⟨hax, hx, hnone⟩ := decryptBlocks_error hm
    obtain ⟨b, hb⟩ := h (x - a) (by omega)
    rw [Nat.add_sub_of_le hax, hnone] at hb
    cases hb

/-- The block loop replaces each block by its own decipherment: storing another block leaves its bytes alone, before and after
its turn (R193). -/
theorem decryptBlocks_deciphers {K : Key} {n a i : Nat} {m m' : Memory} {y z : Word} (h : decryptBlocks K n a m = .ok m')
    (hi : i < n) (hy : memRead m (a + 8 * i) 4 = .ok y.toNat) (hz : memRead m (a + 8 * i + 4) 4 = .ok z.toNat) :
    holdsBytes m' (a + 8 * i) (blockBytes (xteaDec y z K)) := by
  induction n generalizing a i m with
  | zero => omega
  | succ n ih =>
    obtain ⟨y', z', hy', hz', hrest⟩ := decryptBlocks_succ_ok h
    cases i with
    | zero =>
      obtain rfl : y.toNat = y' := Except.ok.inj (hy.symm.trans hy')
      obtain rfl : z.toNat = z' := Except.ok.inj (hz.symm.trans hz')
      rw [BitVec.ofNat_toNat, BitVec.ofNat_toNat] at hrest
      exact holdsBytes_congr (fun x _ hx => decryptBlocks_outside hrest (.inl hx)) (holdsBytes_storeBlock m a _)
    | succ i =>
      rw [show a + 8 * (i + 1) = a + 8 + 8 * i by omega] at hy hz ⊢
      have hlater {x : Nat} (hx : a + 8 ≤ x) := storeBlock_read_outside m
        (xteaDec (BitVec.ofNat 32 y') (BitVec.ofNat 32 z') K) (.inr hx)
      refine ih hrest (by omega) (.trans ?_ hy) (.trans ?_ hz) <;>
        exact memRead_congr fun x hx _ => hlater (by omega)

/-! ## DECRYPT -/

theorem exec_decrypt_ok {s : State} {m : Memory} (hm : decryptBlocks s.key (nblocks s.length.toNat) 5 s.buf = .ok m) :
    exec .decrypt s = .next { afterOk s with buf := m } := by
  show execDecrypt s = _
  rw [execDecrypt, hm]
  rfl

theorem exec_decrypt_uninit {s : State} {a : Nat} (ha : decryptBlocks s.key (nblocks s.length.toNat) 5 s.buf = .error a) :
    exec .decrypt s = .fault (uninitFault .decrypt a s) := by
  show execDecrypt s = _
  rw [execDecrypt, ha]
  rfl

/-- Below 13 bytes there is no block (R192). -/
theorem nblocks_eq_zero {len : Nat} (h : len < 13) : nblocks len = 0 := by
  unfold nblocks
  split <;> omega

/-- Settles O37: the block loop completes exactly on written bytes, and then each block holds its own decipherment. -/
theorem decryptDeciphersEveryBlock : Obligations.DecryptDeciphersEveryBlock := by
  unfold Obligations.DecryptDeciphersEveryBlock
  refine ⟨fun _ => rfl, fun s n hn => ?_⟩
  obtain rfl : n = nblocks s.length.toNat := hn
  refine ⟨fun b hb => ?written, fun j hj hnone => ?hole⟩
  case written =>
    obtain ⟨m, hm⟩ := decryptBlocks_ok_of_written s.key fun j hj => ⟨b j, hb j hj⟩
    refine ⟨m, exec_decrypt_ok hm, fun i hi => ?_, fun _ => decryptBlocks_outside hm⟩
    have hbyte {k : Nat} (hk : k < 8) : s.buf.read (5 + 8 * i + k) = some (b (8 * i + k)) := by
      rw [Nat.add_assoc, hb _ (by omega)]
    exact decryptBlocks_deciphers hm hi
      (memRead_word ⟨hbyte (k := 0) (by decide), hbyte (k := 1) (by decide), hbyte (k := 2) (by decide),
        hbyte (k := 3) (by decide), trivial⟩)
      (memRead_word ⟨hbyte (k := 4) (by decide), hbyte (k := 5) (by decide), hbyte (k := 6) (by decide),
        hbyte (k := 7) (by decide), trivial⟩)
  case hole =>
    cases hm : decryptBlocks s.key (nblocks s.length.toNat) 5 s.buf with
    | error a => exact ⟨a, exec_decrypt_uninit hm⟩
    | ok m =>
      obtain ⟨b, hb⟩ := decryptBlocks_ok_written hm (Nat.le_add_right 5 j) (by omega)
      rw [hnone] at hb
      cases hb

/-- Settles O38: with no block the loop leaves the memory as it is. -/
theorem decryptOfShortBufferChangesNothing : Obligations.DecryptOfShortBufferChangesNothing := by
  unfold Obligations.DecryptOfShortBufferChangesNothing
  intro s hlen
  have hm : decryptBlocks s.key (nblocks s.length.toNat) 5 s.buf = .ok s.buf := by rw [nblocks_eq_zero hlen, decryptBlocks]
  exact exec_decrypt_ok hm

end Sys2Proof.Machine
end

section
/-! The host buffer port (`spec/43_control.md` rules R220 to R223): what an access does, which samples the model refuses, and
the construction sequence. -/

namespace Sys2Proof.Machine

/-! ## One access -/

theorem hostAccess_write {x : Inputs} {s : State} (ha : x.hbAddr.toNat < s.cfg.bufCap) (hw : x.hbWe = true) :
    hostAccess x s = .next { s with buf := s.buf.write x.hbAddr.toNat x.hbWdata } := by
  rw [hostAccess, if_pos ha, if_pos hw]

theorem hostAccess_read {x : Inputs} {s : State} (ha : x.hbAddr.toNat < s.cfg.bufCap) (hw : x.hbWe = false) :
    hostAccess x s = .next { s with
      hbRdata := (s.buf.read x.hbAddr.toNat).getD (Config.freeHostByte s.draws), hbRdataValid := true } := by
  rw [hostAccess, if_pos ha, if_neg (by simp [hw])]

theorem hostAccess_of_cap_le {x : Inputs} {s : State} (ha : s.cfg.bufCap ≤ x.hbAddr.toNat) :
    hostAccess x s = .refused (.hostPortAddress x.hbAddr.toNat) := if_neg (Nat.not_lt.2 ha)

/-- The step on `HBW a, b` (R221). -/
theorem step_of_hbw {s : State} {a : Word} {b : Byte} {xs : List Inputs} (hp : s.phase = .idle)
    (ha : a.toNat < s.cfg.bufCap) (hx : s.inputs = Inputs.hbw a b :: xs) :
    step s = .next { s with
      buf := s.buf.write a.toNat b, inputs := xs, rspValid := false, hbRdataValid := false, draws := s.draws + 1 } := by
  have hs := sample_of_cons hx
  rw [step_of_hostAccess (hs ▸ rfl) hp (hs ▸ rfl) (hs ▸ rfl), hs, hostAccess_write ha rfl, tick, hx]
  rfl

/-- The step on `HBR a` (R222). -/
theorem step_of_hbr {s : State} {a : Word} {xs : List Inputs} (hp : s.phase = .idle)
    (ha : a.toNat < s.cfg.bufCap) (hx : s.inputs = Inputs.hbr a :: xs) :
    step s = .next { s with
      hbRdata := (s.buf.read a.toNat).getD (Config.freeHostByte (s.draws + 1)), hbRdataValid := true, inputs := xs,
      rspValid := false, draws := s.draws + 1 } := by
  have hs := sample_of_cons hx
  rw [step_of_hostAccess (hs ▸ rfl) hp (hs ▸ rfl) (hs ▸ rfl), hs, hostAccess_read ha rfl, tick, hx]
  rfl

/-- Settles O4: the step is one `Memory.write`. -/
theorem hostWriteStoresOneByte : Obligations.HostWriteStoresOneByte := by
  unfold Obligations.HostWriteStoresOneByte
  intro s a b xs hp ha hx
  exact ⟨s.buf.write a.toNat b, step_of_hbw hp ha hx, Memory.read_write_same _ _ _, fun _ => Memory.read_write_ne _ b⟩

/-- Settles O5: the byte shown is the one BUF holds, or the free one; the registers of the next state are those of `s`. -/
theorem hostReadShowsTheByte : Obligations.HostReadShowsTheByte := by
  unfold Obligations.HostReadShowsTheByte
  intro s a xs hp ha hx
  have hstep := step_of_hbr hp ha hx
  refine ⟨_, hstep, fun c hc => by rw [hc, Option.getD_some], fun t ht => ?_⟩
  rw [hstep] at ht
  cases ht
  exact ⟨rfl, rfl, rfl, rfl, rfl, rfl, rfl, rfl⟩

/-! ## Refusals -/

/-- No command is refused, legal or reserved. -/
theorem runCommand_ne_refused (c : Command) (s : State) (r : Refusal) : runCommand c s ≠ .refused r := by
  intro h
  obtain ⟨i, hi, -⟩ | hill := decode_cases c
  · rw [runCommand_of_legal hi] at h
    cases outcome_of_exec h
  · rw [runCommand_of_illegal hill] at h
    cases h

/-- While IDLE, the host port is refused at an address at or above BUF_CAP only (R220). -/
theorem hostAccess_refused_iff {x : Inputs} {s : State} :
    (∃ r, hostAccess x s = .refused r) ↔ s.cfg.bufCap ≤ x.hbAddr.toNat := by
  rcases Nat.lt_or_ge x.hbAddr.toNat s.cfg.bufCap with ha | ha
  · cases hw : x.hbWe <;> simp [hostAccess_read, hostAccess_write, ha, hw]
  · simp [hostAccess_of_cap_le ha, ha]

/-- While BUSY, exactly host port use is refused (R220, R266). -/
theorem busyCycle_refused_iff {x : Inputs} {s : State} : (∃ r, busyCycle x s = .refused r) ↔ x.hbEn = true := by
  cases he : x.hbEn <;> cases hc : x.cmdValid <;> simp [busyCycle, he, hc]

/-- Settles O6: by the kind of sample; a reset, a command and a quiet cycle always go on. -/
theorem refusalIsExactlyHostBreach : Obligations.RefusalIsExactlyHostBreach := by
  unfold Obligations.RefusalIsExactlyHostBreach
  intro s
  cases hr : (sample s).rst with
  | true => simp [hostDuty, hr, step_of_rst hr]
  | false =>
    cases hp : s.phase with
    | busy => simp [hostDuty, hr, hp, step_of_busy hr hp, busyCycle_refused_iff]
    | idle =>
      cases hc : (sample s).cmdValid <;> cases he : (sample s).hbEn
      · simp [hostDuty, he, step_of_quiet hr hp hc he]
      · simp [hostDuty, hr, hp, hc, he, step_of_hostAccess hr hp hc he, hostAccess_refused_iff]
      · simp [hostDuty, he, step_of_command hr hp hc he, runCommand_ne_refused]
      · simp [hostDuty, hr, hc, he, step_of_breach hr hp hc he]

/-! ## The construction sequence -/

/-- BUF after the writes `HBW a, b0 ; HBW a+1, b1 ; …` (`run_loadWrites`). -/
def writeBytes (m : Memory) (a : Nat) : List Byte → Memory
  | [] => m
  | b :: bs => writeBytes (m.write a b) (a + 1) bs

theorem writeBytes_read_outside (m : Memory) {a x : Nat} {bs : List Byte} (h : x < a ∨ a + bs.length ≤ x) :
    (writeBytes m a bs).read x = m.read x := by
  induction bs generalizing m a with
  | nil => rfl
  | cons b bs ih =>
    rw [List.length_cons] at h
    rw [writeBytes, ih _ (by omega), Memory.read_write_ne m b (by omega)]

theorem holdsBytes_writeBytes (m : Memory) (a : Nat) (bs : List Byte) : holdsBytes (writeBytes m a bs) a bs := by
  induction bs generalizing m a with
  | nil => trivial
  | cons b bs ih =>
    exact ⟨(writeBytes_read_outside _ (.inl (Nat.lt_succ_self a))).trans (Memory.read_write_same m a b), ih _ _⟩

/-- A number up to a legal BUF_CAP fits in a word (R7). -/
theorem toNat_ofNat_of_le_cap {c : Config} {n : Nat} (hc : c.wf) (h : n ≤ c.bufCap) : (BitVec.ofNat 32 n).toNat = n := by
  obtain ⟨-, hmax⟩ := hc
  exact Nat.mod_eq_of_lt (by omega)

/-- The writes of a LOAD run one a step, and change nothing of the architecture but BUF (R221, R223). -/
theorem run_loadWrites {s : State} {a : Nat} {bs : List Byte} {ys : List Inputs} (k : Nat) (hp : s.phase = .idle)
    (hcfg : s.cfg.wf) (hcap : a + bs.length ≤ s.cfg.bufCap) (hx : s.inputs = loadWrites a bs ++ ys) :
    ∃ v w d, core.run (bs.length + k) s = core.run k { s with
      buf := writeBytes s.buf a bs, inputs := ys, rspValid := v, hbRdataValid := w, draws := d } := by
  induction bs generalizing s a with
  | nil =>
    obtain rfl : s.inputs = ys := hx
    exact ⟨s.rspValid, s.hbRdataValid, s.draws, by rw [List.length_nil, Nat.zero_add]; rfl⟩
  | cons b bs ih =>
    rw [List.length_cons] at hcap ⊢
    have haddr := toNat_ofNat_of_le_cap hcfg (n := a) (by omega)
    have hstep := step_of_hbw hp (by omega) hx
    have hcap' : a + 1 + bs.length ≤ s.cfg.bufCap := by omega
    rw [haddr] at hstep
    rw [Nat.add_right_comm, run_succ _ hstep]
    exact ih hp hcfg hcap' rfl

/-- Settles O43: the writes by induction on the bytes, then SETLEN, which `bs.length ≤ BUF_CAP` lets complete. -/
theorem loadSequenceBuildsTheBuffer : Obligations.LoadSequenceBuildsTheBuffer := by
  unfold Obligations.LoadSequenceBuildsTheBuffer
  intro s bs xs hp hcfg hcap hx
  have hlen := toNat_ofNat_of_le_cap hcfg hcap
  rw [loadSequence, List.append_assoc] at hx
  obtain ⟨v, w, d, hwrites⟩ := run_loadWrites 1 hp hcfg (by omega) hx
  have hrun := hwrites.trans (run_driveInstr 0 hp rfl (exec_setlen_ok (hlen.trans_le hcap)))
  exact ⟨_, hrun, holdsBytes_writeBytes s.buf 0 bs, hlen, rfl, rfl, rfl, rfl, rfl, rfl,
    fun a ha => writeBytes_read_outside s.buf (.inr (by omega))⟩

end Sys2Proof.Machine
end

section
/-! The control commands (`spec/43_control.md` rules R210 to R213): each as one register update, and their frames. -/

namespace Sys2Proof.Machine

/-- Raising E_ARG, as the statements write the state after it (R234). -/
theorem raiseArg_eq_afterError (i : Instr) (s : State) :
    raiseArg i s = .next (afterError s 0x03 (.errorResponse i .eArg)) := rfl

theorem exec_setkey (ki : BitVec 2) (w : Word) (s : State) :
    exec (.setkey ki w) s = .next { afterOk s with key := s.key.set ki w } := rfl

theorem exec_clrkey (s : State) : exec .clrkey s = .next { afterOk s with key := Key.zero } := rfl

/-- Settles O39: SETPOS by its bounds test. -/
theorem setposSetsCursorWithinLength : Obligations.SetposSetsCursorWithinLength := by
  unfold Obligations.SetposSetsCursorWithinLength
  intro s p
  exact ⟨decode_encode (.setpos p), fun h => (exec_setpos_out h).trans (raiseArg_eq_afterError _ s), exec_setpos_ok⟩

/-- Settles O40: SETLEN by its bounds test. -/
theorem setlenSetsLengthAndRewinds : Obligations.SetlenSetsLengthAndRewinds := by
  unfold Obligations.SetlenSetsLengthAndRewinds
  intro s n
  exact ⟨decode_encode (.setlen n), fun h => (exec_setlen_out h).trans (raiseArg_eq_afterError _ s), exec_setlen_ok⟩

/-- Settles O41: SETKEY is one `Key.set`. -/
theorem setkeyWritesOneKeyWord : Obligations.SetkeyWritesOneKeyWord := by
  unfold Obligations.SetkeyWritesOneKeyWord
  intro s ki w
  exact ⟨decode_setkey ki w, s.key.set ki w, exec_setkey ki w s, Key.get_set_same _ _ _, fun _ => Key.get_set_ne _ w⟩

/-- Settles O42: CLRKEY takes no operand and sets KEY to `Key.zero`. -/
theorem clrkeyZeroesTheKey : Obligations.ClrkeyZeroesTheKey := by
  unfold Obligations.ClrkeyZeroesTheKey
  exact ⟨fun _ => decode_of_encoded rfl nofun, fun s => ⟨Key.zero, exec_clrkey s, Key.get_zero⟩⟩

/-- Settles O52: SETPOS and SETLEN complete or raise E_ARG; SETKEY and CLRKEY have no error response. -/
theorem controlCommandFrame : Obligations.ControlCommandFrame := by
  unfold Obligations.ControlCommandFrame
  intro s t
  refine ⟨fun p ht => ?setpos, fun n ht => ?setlen, fun ki w ht => ?setkey, fun ht => ?clrkey⟩
  case setpos =>
    cases outcome_of_exec ht with
    | setpos | error => rfl
    | read r hi => exact absurd rfl hi
  case setlen =>
    cases outcome_of_exec ht with
    | setlen | error => rfl
    | read r hi => exact absurd rfl hi
  case setkey =>
    rw [exec_setkey] at ht
    cases ht
    rfl
  case clrkey =>
    rw [exec_clrkey] at ht
    cases ht
    rfl

end Sys2Proof.Machine
end

section
/-! Exceptions (`spec/60_exceptions.md` rules R230 to R243): which errors a command raises, where it stops, and the sticky log. -/

namespace Sys2Proof.Machine

/-! ## The read commands by their widths -/

theorem inBounds_pos_iff_le_available {s : State} {n : Nat} (hn : 0 < n) :
    inBounds s s.pos.toNat n ↔ n ≤ available s := by
  unfold available
  omega

/-- A fixed-width read is the read at the cursor of its bytes (R140). -/
theorem exec_of_fixedWidth {i : Instr} {n : Nat} (h : fixedWidth i = some n) (s : State) :
    0 < n ∧ ∃ p, exec i s = readAtPos i n p s := by
  cases i <;> cases h
  case rd8u => exact ⟨by decide, _, execRd8u_eq s⟩
  all_goals exact ⟨by decide, _, rfl⟩

/-- A smart command is the smart read of its two forms (R171). -/
theorem exec_of_smartWidths {i : Instr} {f g : Nat} (h : smartWidths i = some (f, g)) (s : State) :
    0 < f ∧ 0 < g ∧ ∃ p q, exec i s = readSmart i (f, p) (g, q) s := by
  cases i <;> cases h
  all_goals exact ⟨by decide, by decide, _, _, rfl⟩

/-- Every command that returns a number has a width, or two. -/
theorem signednessOf_eq_none {i : Instr} (hfixed : fixedWidth i = none) (hsmart : smartWidths i = none) :
    signednessOf i = none := by
  cases i with
  | wr4 | decrypt | setpos | setlen | clrkey | setkey => rfl
  | rd1u | rd1s | rd2u | rd2s | rd3u | rd4u | rd4s | rd8u | rdbool => cases hfixed
  | smartu | smarts | smart4m | smart4u => cases hsmart

/-! ## Which error a command raises -/

/-- The read at the cursor answers E_BOUNDS where its bytes are not in bounds, and OK otherwise (R140). -/
theorem readAtPos_status {i : Instr} {n : Nat} {p : Nat → DWord} {s t : State} (ht : readAtPos i n p s = .next t) :
    t.status = if inBounds s s.pos.toNat n then 0x00 else 0x01 := by
  obtain ⟨hin, e⟩ | ⟨v, hin, -, e⟩ | ⟨a, -, -, e⟩ := readAtPos_cases i n p s <;> rw [e] at ht <;> cases ht
  · rw [if_neg hin]; rfl
  · rw [if_pos hin]; rfl

/-- A smart command answers E_BOUNDS with no byte to peek at, and otherwise as the form that the peeked byte selects (R171). -/
theorem readSmart_status {i : Instr} {f g : Nat} {p q : Nat → DWord} {s t : State}
    (ht : readSmart i (f, p) (g, q) s = .next t) :
    ¬ inBounds s s.pos.toNat 1 ∧ t.status = 0x01 ∨
      ∃ b0, inBounds s s.pos.toNat 1 ∧ s.buf.read s.pos.toNat = some b0 ∧
        t.status = if inBounds s s.pos.toNat (if b0.msb then g else f) then 0x00 else 0x01 := by
  obtain ⟨hin, e⟩ | ⟨-, -, e⟩ | ⟨b0, hin, hb, e⟩ := readSmart_cases i (f, p) (g, q) s <;> rw [e] at ht
  · cases ht
    exact .inl ⟨hin, rfl⟩
  · cases ht
  · refine .inr ⟨b0, hin, hb, ?_⟩
    cases htop : b0.msb <;> rw [htop] at ht <;> exact readAtPos_status ht

/-- WR4 answers E_BOUNDS where its four bytes are not in bounds, and OK otherwise (R139). -/
theorem exec_wr4_status {w : Word} {s t : State} (ht : exec (.wr4 w) s = .next t) :
    t.status = if inBounds s s.pos.toNat 4 then 0x00 else 0x01 := by
  by_cases hin : inBounds s s.pos.toNat 4
  · rw [exec_wr4_ok hin] at ht
    cases ht
    rw [if_pos hin]; rfl
  · rw [exec_wr4_out hin] at ht
    cases ht
    rw [if_neg hin]; rfl

theorem eBounds_of_ite_iff {P : Prop} [Decidable P] : (if P then 0x00 else 0x01 : BitVec 8) = 0x01 ↔ ¬ P := by
  by_cases h : P <;> simp [h]

/-- What a command can answer from `s` (`exec_statusOrStop` ties it to `exec`), by the STATUS of its response and the range of the
byte it stops at: E_BOUNDS in a read command or WR4 (R231), E_ARG in SETPOS or SETLEN (R234), UNINIT in a read command at or
above POS or in DECRYPT above the header (R193, R236). -/
inductive StatusOrStop (s : State) : Instr → Result → Prop
  | ok {i : Instr} {t : State} (h : t.status = 0x00) : StatusOrStop s i (.next t)
  | eBounds {i : Instr} {t : State} (h : t.status = 0x01) (hi : signednessOf i ≠ none ∨ ∃ w, i = .wr4 w) :
      StatusOrStop s i (.next t)
  | eArg {i : Instr} {t : State} (h : t.status = 0x03) (hi : ∃ p, i = .setpos p ∨ i = .setlen p) :
      StatusOrStop s i (.next t)
  | readStop {i : Instr} {a : Nat} (hi : signednessOf i ≠ none) (ha : s.pos.toNat ≤ a) :
      StatusOrStop s i (.fault (uninitFault i a s))
  | decryptStop {a : Nat} (ha : 5 ≤ a) : StatusOrStop s .decrypt (.fault (uninitFault .decrypt a s))

theorem readAtPos_statusOrStop {i : Instr} (hi : signednessOf i ≠ none) (n : Nat) (p : Nat → DWord) (s : State) :
    StatusOrStop s i (readAtPos i n p s) := by
  obtain ⟨-, e⟩ | ⟨v, -, -, e⟩ | ⟨a, -, ha, e⟩ := readAtPos_cases i n p s <;> rw [e]
  · exact .eBounds rfl (.inl hi)
  · exact .ok rfl
  · obtain ⟨-, hle, -⟩ := memRead_error ha
    exact .readStop hi hle

theorem readSmart_statusOrStop {i : Instr} (hi : signednessOf i ≠ none) (f g : Nat × (Nat → DWord)) (s : State) :
    StatusOrStop s i (readSmart i f g s) := by
  obtain ⟨-, e⟩ | ⟨-, -, e⟩ | ⟨b0, -, -, e⟩ := readSmart_cases i f g s <;> rw [e]
  · exact .eBounds rfl (.inl hi)
  · exact .readStop hi (Nat.le_refl _)
  · split <;> exact readAtPos_statusOrStop hi _ _ s

theorem exec_statusOrStop (i : Instr) (s : State) : StatusOrStop s i (exec i s) := by
  obtain hi | ⟨w, rfl⟩ | rfl | ⟨p, rfl⟩ | ⟨n, rfl⟩ | rfl | ⟨ki, w, rfl⟩ := Instr.read_or_numberless i
  · obtain ⟨n, p, -, e⟩ | ⟨f, g, e⟩ := exec_read_form hi <;> rw [e]
    · exact readAtPos_statusOrStop hi n _ s
    · exact readSmart_statusOrStop hi f g s
  · by_cases h : inBounds s s.pos.toNat 4
    · rw [exec_wr4_ok h]; exact .ok rfl
    · rw [exec_wr4_out h]; exact .eBounds rfl (.inr ⟨w, rfl⟩)
  · cases hm : decryptBlocks s.key (nblocks s.length.toNat) 5 s.buf with
    | ok m => rw [exec_decrypt_ok hm]; exact .ok rfl
    | error a =>
      obtain ⟨h5, -, -⟩ := decryptBlocks_error hm
      rw [exec_decrypt_uninit hm]
      exact .decryptStop h5
  · rcases Nat.lt_or_ge s.length.toNat p.toNat with h | h
    · rw [exec_setpos_out h]; exact .eArg rfl ⟨p, .inl rfl⟩
    · rw [exec_setpos_ok h]; exact .ok rfl
  · rcases Nat.lt_or_ge s.cfg.bufCap n.toNat with h | h
    · rw [exec_setlen_out h]; exact .eArg rfl ⟨n, .inr rfl⟩
    · rw [exec_setlen_ok h]; exact .ok rfl
  · exact .ok rfl
  · exact .ok rfl

/-- `exec_statusOrStop` for a command that answers a known result. -/
theorem statusOrStop_of_exec {i : Instr} {s : State} {r : Result} (h : exec i s = r) : StatusOrStop s i r :=
  h ▸ exec_statusOrStop i s

/-- A command that answers either completes with OK and adds nothing to the log, or answers an error, its log entry with it,
and changes nothing else (R233, R235, R243). -/
theorem exec_ok_or_error {i : Instr} {s t : State} (ht : exec i s = .next t) :
    (t.status = 0x00 ∧ t.log = s.log ∧ t.rspValid = true ∧ t.phase = .idle ∧ t.cfg = s.cfg) ∨
      t.status ≠ 0x00 ∧ ∃ e, t = afterError s t.status e := by
  cases outcome_of_exec ht with
  | read | wr4 | decrypt | setpos | setlen | clrkey | setkey => exact .inl ⟨rfl, rfl, rfl, rfl, rfl⟩
  | error i c hc =>
    refine .inr ⟨?_, .errorResponse i c, rfl⟩
    obtain rfl | rfl := hc
    · exact (by decide : statusOf .eBounds ≠ 0x00)
    · exact (by decide : statusOf .eArg ≠ 0x00)

/-- Settles O45: the bounds test of each command that has one, and the commands that have none. -/
theorem boundsErrorExactlyOutOfRange : Obligations.BoundsErrorExactlyOutOfRange := by
  unfold Obligations.BoundsErrorExactlyOutOfRange
  intro i s t ht
  refine ⟨fun n hn => ?fixed, fun w hw => ?wr4, fun f g hfg => ?smart, fun hfixed hsmart hwr4 h1 => ?others⟩
  case fixed =>
    obtain ⟨hpos, p, e⟩ := exec_of_fixedWidth hn s
    rw [readAtPos_status (e.symm.trans ht), eBounds_of_ite_iff, inBounds_pos_iff_le_available hpos]
  case wr4 =>
    subst hw
    rw [exec_wr4_status ht, eBounds_of_ite_iff, inBounds_pos_iff_le_available (by decide)]
  case smart =>
    obtain ⟨hf, hg, p, q, e⟩ := exec_of_smartWidths hfg s
    obtain ⟨hout, h⟩ | ⟨b0, hin, hb, h⟩ := readSmart_status (e.symm.trans ht)
    · rw [inBounds_pos_iff_le_available Nat.one_pos] at hout
      exact iff_of_true h (.inl hout)
    · have hform : 0 < if b0.msb then g else f := by split <;> assumption
      rw [inBounds_pos_iff_le_available Nat.one_pos] at hin
      rw [h, eBounds_of_ite_iff, inBounds_pos_iff_le_available hform]
      simp [hin, hb]
  case others =>
    cases statusOrStop_of_exec ht with
    | ok h => exact absurd (h.symm.trans h1) (by decide)
    | eArg h => exact absurd (h.symm.trans h1) (by decide)
    | eBounds _ hi =>
      obtain hread | ⟨w, rfl⟩ := hi
      · exact hread (signednessOf_eq_none hfixed hsmart)
      · exact hwr4 w rfl

/-- Settles O46: an answer other than OK is an error response, and `StatusOrStop` lists its codes. -/
theorem errorChangesOnlyStatus : Obligations.ErrorChangesOnlyStatus := by
  unfold Obligations.ErrorChangesOnlyStatus
  intro i s t ht hne
  obtain ⟨hok, -⟩ | ⟨-, herr⟩ := exec_ok_or_error ht
  · exact absurd hok hne
  · refine ⟨herr, ?_⟩
    cases statusOrStop_of_exec ht with
    | ok h => exact absurd h hne
    | eBounds h => exact .inl h
    | eArg h hi => exact .inr ⟨h, hi⟩

/-- Settles O47: both kinds of answer are a response; only the error response adds to the log. -/
theorem commandAnswersOneResponse : Obligations.CommandAnswersOneResponse := by
  unfold Obligations.CommandAnswersOneResponse
  intro i s t ht
  obtain ⟨hok, hlog, hrsp, hidle, -⟩ | ⟨hne, e, he⟩ := exec_ok_or_error ht
  · exact ⟨hrsp, hidle, iff_of_true hok hlog⟩
  · have hlog : t.log ≠ s.log := by
      rw [he]
      exact List.cons_ne_self e s.log
    exact ⟨he ▸ rfl, he ▸ rfl, iff_of_false hne hlog⟩

/-! ## Where a command stops -/

/-- The byte that UNINIT names holds no value and lies below LENGTH (R236). -/
theorem unwritten_of_exec_fault {i : Instr} {a : Nat} {s : State} (hf : exec i s = .fault (uninitFault i a s)) :
    s.buf.read a = none ∧ a < s.length.toNat := by
  cases outcome_of_exec hf with
  | uninit _ hlt hnone => exact ⟨hnone, hlt⟩

/-- Settles O48: the stops of a command and their ranges, the byte named being unwritten and below LENGTH. -/
theorem faultIsAReadOfAnUnwrittenByte : Obligations.FaultIsAReadOfAnUnwrittenByte := by
  unfold Obligations.FaultIsAReadOfAnUnwrittenByte
  refine fun i s => ⟨fun r hr => (nomatch outcome_of_exec hr), fun f hf => ?_⟩
  cases statusOrStop_of_exec hf with
  | readStop hi ha =>
    obtain ⟨hnone, hlt⟩ := unwritten_of_exec_fault hf
    exact ⟨_, rfl, hnone, hlt, .inl ⟨hi, ha⟩⟩
  | decryptStop ha =>
    obtain ⟨hnone, hlt⟩ := unwritten_of_exec_fault hf
    exact ⟨_, rfl, hnone, hlt, .inr ⟨rfl, ha⟩⟩

/-- The read at the cursor, in bounds, stops at the lowest byte of its range that holds no value (R236, assumption 16). -/
theorem readAtPos_of_lowest_unwritten {i : Instr} {n k : Nat} {p : Nat → DWord} {s : State}
    (hin : inBounds s s.pos.toNat n) (hk : k < n) (hbelow : ∀ j, j < k → ∃ b, s.buf.read (s.pos.toNat + j) = some b)
    (hnone : s.buf.read (s.pos.toNat + k) = none) :
    readAtPos i n p s = .fault (uninitFault i (s.pos.toNat + k) s) :=
  readAtPos_uninit hin (memRead_of_lowest_unwritten hk hbelow hnone)

/-- A smart command stops at the peek where that byte holds no value (R171, R236). -/
theorem readSmart_of_peek_unwritten {i : Instr} {f g : Nat × (Nat → DWord)} {s : State}
    (hin : inBounds s s.pos.toNat 1) (hnone : s.buf.read s.pos.toNat = none) :
    readSmart i f g s = .fault (uninitFault i s.pos.toNat s) := by
  obtain ⟨hout, -⟩ | ⟨-, -, e⟩ | ⟨b0, -, hb, -⟩ := readSmart_cases i f g s
  · exact absurd hin hout
  · exact e
  · cases hnone.symm.trans hb

/-- Settles O49: the read at the cursor at its lowest unwritten byte; a smart command at the peek, or as the read of its form. -/
theorem readOfUnwrittenByteIsUninit : Obligations.ReadOfUnwrittenByteIsUninit := by
  unfold Obligations.ReadOfUnwrittenByteIsUninit
  intro i s
  refine ⟨fun n k hn hin hk hbelow hnone => ?fixed, fun f g hfg hin => ?smart⟩
  case fixed =>
    obtain ⟨-, p, e⟩ := exec_of_fixedWidth hn s
    exact e.trans (readAtPos_of_lowest_unwritten hin hk hbelow hnone)
  case smart =>
    obtain ⟨-, -, p, q, e⟩ := exec_of_smartWidths hfg s
    refine ⟨fun hnone => e.trans (readSmart_of_peek_unwritten hin hnone), fun b0 k hb hform hk hbelow hnone => ?_⟩
    rw [e, readSmart_peek hin hb]
    cases htop : b0.msb <;> rw [htop] at hform hk <;> exact readAtPos_of_lowest_unwritten hform hk hbelow hnone

/-! ## The sticky log -/

/-- Everything a step can do: reset, pass a cycle, run a command, serve the host port, or refuse. -/
theorem step_cases (s : State) :
    step s = .next (applyReset s) ∨ (∃ xs, step s = .next { tick s with inputs := xs }) ∨
      step s = runCommand (sample s).command (accept s) ∨ step s = hostAccess (sample s) (tick s) ∨
      ∃ r, step s = .refused r := by
  cases hr : (sample s).rst with
  | true => exact .inl (step_of_rst hr)
  | false =>
    cases hp : s.phase with
    | busy =>
      rw [step_of_busy hr hp, busyCycle]
      split
      · exact .inr (.inr (.inr (.inr ⟨_, rfl⟩)))
      · split <;> exact .inr (.inl ⟨_, rfl⟩)
    | idle =>
      cases hc : (sample s).cmdValid <;> cases he : (sample s).hbEn
      · exact .inr (.inl ⟨_, step_of_quiet hr hp hc he⟩)
      · exact .inr (.inr (.inr (.inl (step_of_hostAccess hr hp hc he))))
      · exact .inr (.inr (.inl (step_of_command hr hp hc he)))
      · exact .inr (.inr (.inr (.inr ⟨_, step_of_breach hr hp hc he⟩)))

/-- `t` keeps the log of `s` and shows no error response, or shows one and its log has one entry more (R243); the parameters
are the same. -/
def StickyFrom (s t : State) : Prop :=
  ((t.log = s.log ∧ (t.rspValid = true → t.status = 0x00)) ∨
    ∃ e, t.log = e :: s.log ∧ t.rspValid = true ∧ t.status ≠ 0x00) ∧ t.cfg = s.cfg

/-- What gives no response and touches neither log nor parameters is sticky. -/
theorem StickyFrom.of_silent {s t : State} (hlog : t.log = s.log) (hrsp : t.rspValid = false) (hcfg : t.cfg = s.cfg) :
    StickyFrom s t :=
  ⟨.inl ⟨hlog, fun h => nomatch hrsp.symm.trans h⟩, hcfg⟩

theorem stickyFrom_afterError (s : State) {st : BitVec 8} (hst : st ≠ 0x00) (e : LogEntry) :
    StickyFrom s (afterError s st e) :=
  ⟨.inr ⟨e, rfl, rfl, hst⟩, rfl⟩

theorem stickyFrom_of_exec {i : Instr} {s t : State} (ht : exec i s = .next t) : StickyFrom s t := by
  obtain ⟨hok, hlog, -, -, hcfg⟩ | ⟨hne, e, he⟩ := exec_ok_or_error ht
  · exact ⟨.inl ⟨hlog, fun _ => hok⟩, hcfg⟩
  · rw [he]
    exact stickyFrom_afterError s hne e

/-- Raising E_ILLEGAL, as the statements write the state after it (R232). -/
theorem raiseIllegal_eq_afterError (op : Byte) (s : State) :
    raiseIllegal op s = .next (afterError s 0x02 (.illegalWord op)) := rfl

theorem stickyFrom_of_runCommand {c : Command} {s t : State} (ht : runCommand c s = .next t) : StickyFrom s t := by
  cases hd : decode c with
  | legal i => exact stickyFrom_of_exec ((runCommand_of_legal hd s).symm.trans ht)
  | illegal op =>
    rw [runCommand_of_illegal hd, raiseIllegal_eq_afterError] at ht
    cases ht
    exact stickyFrom_afterError s (by decide) _

/-- A host port access is refused, or it goes on without a response and with the same log (R220 to R222). -/
theorem hostAccess_refused_or_silent (x : Inputs) (s : State) :
    (∃ r, hostAccess x s = .refused r) ∨
      ∃ t, hostAccess x s = .next t ∧ t.log = s.log ∧ t.rspValid = s.rspValid ∧ t.cfg = s.cfg := by
  rcases Nat.lt_or_ge x.hbAddr.toNat s.cfg.bufCap with ha | ha
  · cases hw : x.hbWe
    · exact .inr ⟨_, hostAccess_read ha hw, rfl, rfl, rfl⟩
    · exact .inr ⟨_, hostAccess_write ha hw, rfl, rfl, rfl⟩
  · exact .inl ⟨_, hostAccess_of_cap_le ha⟩

theorem stickyFrom_of_step {s t : State} (ht : step s = .next t) : StickyFrom s t := by
  obtain e | ⟨xs, e⟩ | e | e | ⟨r, e⟩ := step_cases s <;> rw [e] at ht
  · cases ht
    exact .of_silent rfl rfl rfl
  · cases ht
    exact .of_silent rfl rfl rfl
  · change StickyFrom (accept s) t
    exact stickyFrom_of_runCommand ht
  · obtain ⟨r, e⟩ | ⟨t', e, hlog, hrsp, hcfg⟩ := hostAccess_refused_or_silent (sample s) (tick s) <;>
      cases e.symm.trans ht
    exact .of_silent hlog hrsp hcfg
  · cases ht

/-- Only a legal command stops (R236). -/
theorem exec_of_step_fault {s : State} {f : Fault} (hf : step s = .fault f) : ∃ i, exec i (accept s) = .fault f := by
  obtain e | ⟨xs, e⟩ | e | e | ⟨r, e⟩ := step_cases s <;> rw [e] at hf
  · cases hf
  · cases hf
  · obtain ⟨i, hi, -⟩ | hill := decode_cases (sample s).command
    · exact ⟨i, (runCommand_of_legal hi _).symm.trans hf⟩
    · cases (runCommand_of_illegal hill _).symm.trans hf
  · obtain ⟨r, e⟩ | ⟨t, e, -⟩ := hostAccess_refused_or_silent (sample s) (tick s) <;> cases e.symm.trans hf
  · cases hf

/-- Settles O58: by the kind of step; a command adds to the log of the state in which it runs, which is the log before. -/
theorem logIsSticky : Obligations.LogIsSticky := by
  unfold Obligations.LogIsSticky
  refine fun s => ⟨fun t ht => stickyFrom_of_step ht, fun f hf => ?_⟩
  obtain ⟨i, hi⟩ := exec_of_step_fault hf
  cases outcome_of_exec hi with
  | uninit _ => exact ⟨i, _, rfl⟩

/-- A step keeps every entry of the log. -/
theorem StickyFrom.log_suffix {s t : State} (h : StickyFrom s t) : s.log <:+ t.log := by
  obtain ⟨⟨hlog, -⟩ | ⟨e, hlog, -, -⟩, -⟩ := h <;> rw [hlog]
  exact List.suffix_cons e s.log

/-- A run keeps every entry of the log. -/
theorem log_suffix_of_reaches {s t : State} (h : Reaches s t) : s.log <:+ t.log := by
  induction h with
  | refl => exact List.suffix_refl _
  | step _ hstep ih => exact ih.trans (stickyFrom_of_step hstep).log_suffix

/-- What reaches a clean log has a clean log. -/
theorem clean_of_reaches {s t : State} (h : Reaches s t) (ht : clean t) : clean s := by
  have hlog := log_suffix_of_reaches h
  rw [clean] at ht
  rwa [ht, List.suffix_nil] at hlog

/-- A response shown with a clean log has STATUS OK. -/
theorem StickyFrom.status_ok_of_clean {s t : State} (h : StickyFrom s t) (ht : clean t) (hrsp : t.rspValid = true) :
    t.status = 0x00 := by
  obtain ⟨⟨-, hok⟩ | ⟨e, hlog, -, -⟩, -⟩ := h
  · exact hok hrsp
  · exact nomatch ht.symm.trans hlog

/-- Settles O59: the log only grows along a run (induction over `Reaches`), so each step on the way ends with a clean log. -/
theorem cleanLogMeansNoErrorOnTheWay : Obligations.CleanLogMeansNoErrorOnTheWay := by
  unfold Obligations.CleanLogMeansNoErrorOnTheWay
  intro s t u hst htu
  refine ⟨(log_suffix_of_reaches hst).trans (log_suffix_of_reaches htu), fun hu => ⟨clean_of_reaches htu hu, ?_⟩⟩
  intro v hv hvu hrsp
  exact (stickyFrom_of_step hv).status_ok_of_clean (clean_of_reaches hvu hu) hrsp

/-! ## Reserved words -/

/-- Settles O15: a word that no format allows decodes to ILLEGAL, and the accepted command raises E_ILLEGAL. -/
theorem reservedWordRaisesIllegal : Obligations.ReservedWordRaisesIllegal := by
  unfold Obligations.ReservedWordRaisesIllegal
  intro s x xs hx hp hr hc he hwf
  obtain rfl := sample_of_cons hx
  have hill : decode (sample s).command = .illegal (sample s).cmdOp := (decode_eq_illegal_iff_wellFormed _).2 hwf
  rw [step_of_command hr hp hc he, runCommand_of_illegal hill, accept_eq_whileBusy, raiseIllegal_eq_afterError]

end Sys2Proof.Machine
end

section
/-! Reset (`spec/70_reset_and_hazards.md` rules R260, R261), and that an accepted command always completes (R263, R267, R268). -/

namespace Sys2Proof.Machine

/-! ## Only an unwritten byte stops the machine -/

/-- A step stops only as UNINIT, at a byte below LENGTH that holds no value (R236, R268). -/
theorem unwritten_of_step_fault {s : State} {f : Fault} (hf : step s = .fault f) :
    ∃ i a, f = uninitFault i a s ∧ a < s.length.toNat ∧ s.buf.read a = none := by
  obtain ⟨i, hi⟩ := exec_of_step_fault hf
  obtain ⟨-, hstops⟩ := faultIsAReadOfAnUnwrittenByte i (accept s)
  obtain ⟨a, rfl, hnone, hlt, -⟩ := hstops f hi
  exact ⟨i, a, rfl, hlt, hnone⟩

theorem step_ne_fault_of_written {s : State} (hw : Written s) (f : Fault) : step s ≠ .fault f := by
  intro hf
  obtain ⟨i, a, -, hlt, hnone⟩ := unwritten_of_step_fault hf
  obtain ⟨b, hb⟩ := hw a hlt
  cases hnone.symm.trans hb

theorem step_ne_refused_of_hostDuty {s : State} (hd : hostDuty s (sample s)) (r : Refusal) : step s ≠ .refused r :=
  fun hr => (refusalIsExactlyHostBreach s).1 ⟨r, hr⟩ hd

/-- Settles O60: of the three outcomes, the host's duty excludes the refusal and the written buffer the fault. -/
theorem writtenBufferNeverStops : Obligations.WrittenBufferNeverStops := by
  unfold Obligations.WrittenBufferNeverStops
  refine fun s _ hd => ⟨fun hw => ?_, fun f hf => unwritten_of_step_fault hf⟩
  cases hs : step s with
  | next t => exact ⟨t, rfl⟩
  | fault f => exact absurd hs (step_ne_fault_of_written hw f)
  | refused r => exact absurd hs (step_ne_refused_of_hostDuty hd r)

/-! ## Reset -/

/-- Settles O2: the step is `applyReset`, whatever else the sample holds, and `rst` gates both handshake outputs. -/
theorem resetCycleRestoresReset : Obligations.ResetCycleRestoresReset := by
  unfold Obligations.ResetCycleRestoresReset
  intro s x xs hx hr
  have hstep : step s = .next (applyReset s) := step_of_rst (by rw [sample_of_cons hx, hr])
  have hinputs : (applyReset s).inputs = xs := by rw [applyReset_inputs, hx, List.tail_cons]
  exact ⟨applyReset s, hstep, hinputs, applyReset_log s, applyReset_cfg s, Memory.read_nil, applyReset_length s,
    applyReset_pos s, Key.get_zero, applyReset_resultValid s, applyReset_status s, applyReset_phase s,
    applyReset_rspValid s, applyReset_hbRdataValid s, rfl, rfl⟩

end Sys2Proof.Machine
end
